-- ==== Sys2Proof/Word.lean ====
section
/-! DEFINITION. The widths of the bit-serializer: registers and command words are 64 bits (R58, R100),
buffer cells 8 bits (R52, R53), host transaction descriptors 32 bits (R110). -/

namespace Sys2Proof

/-- A buffer byte or a pixel intensity (R52, R53). -/
abbrev Byte := BitVec 8

/-- A register value, a command word or the data of a host access (R58, R100, R110). -/
abbrev Word := BitVec 64

/-- A host transaction descriptor (R110). -/
abbrev Desc := BitVec 32

end Sys2Proof
end

