-- ==== Sys2Proof/Config.lean ====
section
/-! DEFINITION. What a build of the block fixes: the parameter `G_MAX` with its legal range (R10), the
buffer sizes that follow from it (R11), the identification value (R31) and the window bases (R71).
`G_MAX` itself is not a constant of the model: it stands in the `CAP` register (R32), so that a claim
about every state is a claim about every build. -/

namespace Sys2Proof.Config

/-- The default of the build parameter `G_MAX` (R10). -/
def gMaxDefault : Nat := 64

/-- The legal values of `G_MAX`: multiples of 8 from 64 to 2040 (R10). -/
abbrev LegalGMax (g : Nat) : Prop := g % 8 = 0 ∧ 64 ≤ g ∧ g ≤ 2040

/-- `BS_MAX = G_MAX² / 8`, the physical size of `BUF` (R11). -/
def bsMax (g : Nat) : Nat := g * g / 8

/-- `RAS_MAX = G_MAX²`, the physical size of `RAS` (R11). -/
def rasMax (g : Nat) : Nat := g * g

/-- The value of `ID`: ASCII "BSR" and the version byte (R31). -/
def idValue : Word := 0x42535201#64

/-- The reset value of `CFG.GDIV8` (R33). -/
def gdiv8Reset : Byte := 8#8

/-- The reset value of `CFG.THRESH` (R33). -/
def threshReset : Byte := 127#8

/-- The first address of the `BUF` window (R71). -/
def bufBase : Nat := 0x100000

/-- The first address of the `RAS` window (R71). -/
def rasBase : Nat := 0x400000

end Sys2Proof.Config
end

