-- ==== Sys2Proof/Syntax.lean ====
section
/-! DEFINITION. The instructions: one constructor per row of the opcode table, the twelve commands of
format `CW` (R106) and the six host operations of format `HT` (R111). -/

namespace Sys2Proof

/-- The fourteen registers, in the order of their offsets 0x00, 0x08, …, 0x68 (R71). -/
inductive Reg where
  | id | cap | cfg | status | err | arg | cmd
  | fsize | nblk | bidx | pos | spanoff | spanlen | bsize
  deriving DecidableEq, Repr

/-- One constructor per row of the opcode table. A command carries no operand field (R103). A register
access names its register, a window access its index in the buffer. -/
inductive Instr where
  /-- `NOP` (R220) -/
  | nop
  /-- `CFG` (R221) -/
  | cfg
  /-- `ENC_INIT` (R135) -/
  | encInit
  /-- `ENC_FRAME` (R136) -/
  | encFrame
  /-- `ENC_END` (R138) -/
  | encEnd
  /-- `B2R` (R165) -/
  | b2r
  /-- `R2B` (R171) -/
  | r2b
  /-- `DEC_INIT` (R192) -/
  | decInit
  /-- `DEC_BLOCK` (R193) -/
  | decBlock
  /-- `DEC_END` (R196) -/
  | decEnd
  /-- `ABORT` (R223) -/
  | abort
  /-- `CLRERR` (R224) -/
  | clrerr
  /-- `REG_RD` (R73) -/
  | regRd (r : Reg)
  /-- `REG_WR` (R74) -/
  | regWr (r : Reg)
  /-- `BUF_RD` of `BUF[off]` (R75) -/
  | bufRd (off : BitVec 20)
  /-- `BUF_WR` of `BUF[off]` (R75) -/
  | bufWr (off : BitVec 20)
  /-- `RAS_RD` of `RAS[off]` (R76) -/
  | rasRd (off : BitVec 22)
  /-- `RAS_WR` of `RAS[off]` (R76) -/
  | rasWr (off : BitVec 22)
  deriving DecidableEq, Repr

end Sys2Proof
end

