-- ==== Sys2Proof/WellFormed.lean ====
section
/-! DEFINITION. Which instructions a build with a given `G_MAX` has: a window access must name a byte
inside the physical buffer (R111, the rows' further conditions). Every other instruction is one of the
table as it stands, since registers and commands are names. -/

namespace Sys2Proof

/-- The further conditions of R111: `ADDR − 0x100000 < BS_MAX` and `ADDR − 0x400000 < RAS_MAX`. -/
def Instr.wellFormed (gMax : Nat) : Instr → Bool
  | .bufRd off => decide (off.toNat < Config.bsMax gMax)
  | .bufWr off => decide (off.toNat < Config.bsMax gMax)
  | .rasRd off => decide (off.toNat < Config.rasMax gMax)
  | .rasWr off => decide (off.toNat < Config.rasMax gMax)
  | .nop | .cfg | .encInit | .encFrame | .encEnd | .b2r | .r2b => true
  | .decInit | .decBlock | .decEnd | .abort | .clrerr => true
  | .regRd _ | .regWr _ => true

end Sys2Proof
end

