-- ==== Sys2Proof/Decode.lean ====
section
/-! DEFINITION. Decoding of command words (format `CW`, R100, R106, R107) and of host transaction
descriptors (format `HT`, R110, R111), and the encoder written from the same tables. Neither decoder
depends on `MODE` (R109); the descriptor's depends on the build's `G_MAX` through the window sizes. -/

namespace Sys2Proof

/-- Why bits are no instruction. -/
inductive DecodeError where
  /-- A command word with a nonzero reserved field (R102); executed, it records `ILLEGAL`. -/
  | reservedBits
  /-- A command word whose `OP` is 0x0C … 0xFF (R101); executed, it records `ILLEGAL`. -/
  | unassignedOp
  /-- A descriptor that is no legal access (R111, last row); executed, it records `BUS`. -/
  | busError
  deriving DecidableEq, Repr

/-! ### Command words -/

/-- The field `OP`, bits [7:0] of a command word (R100). -/
def opField (w : Word) : Byte := w.extractLsb' 0 8

/-- The field `RSV`, bits [63:8] of a command word (R100). -/
def cwRsvField (w : Word) : BitVec 56 := w.extractLsb' 8 56

/-- The opcode map (R106): the whole word is matched, so reserved bits must be 0 (R102). -/
def decodeCommand (w : Word) : Except DecodeError Instr :=
  if cwRsvField w ≠ 0#56 then .error .reservedBits
  else match (opField w).toNat with
    | 0x00 => .ok .nop
    | 0x01 => .ok .cfg
    | 0x02 => .ok .encInit
    | 0x03 => .ok .encFrame
    | 0x04 => .ok .encEnd
    | 0x05 => .ok .b2r
    | 0x06 => .ok .r2b
    | 0x07 => .ok .decInit
    | 0x08 => .ok .decBlock
    | 0x09 => .ok .decEnd
    | 0x0A => .ok .abort
    | 0x0B => .ok .clrerr
    | _ => .error .unassignedOp

/-! ### Host transaction descriptors -/

/-- `W`, bit 31 of a descriptor: true for a write (R110). -/
def wField (d : Desc) : Bool := d.getLsbD 31

/-- `SZ`, bits [30:28]: log2 of the access width in bytes (R110). -/
def szField (d : Desc) : BitVec 3 := d.extractLsb' 28 3

/-- `RSV`, bits [27:23] (R110). -/
def htRsvField (d : Desc) : BitVec 5 := d.extractLsb' 23 5

/-- `ADDR`, bits [22:0]: the byte offset in the block's address space (R70, R110). -/
def addrField (d : Desc) : BitVec 23 := d.extractLsb' 0 23

/-- The offset of each register (R71; R31 to R51). -/
def Reg.offset : Reg → Nat
  | .id => 0x00
  | .cap => 0x08
  | .cfg => 0x10
  | .status => 0x18
  | .err => 0x20
  | .arg => 0x28
  | .cmd => 0x30
  | .fsize => 0x38
  | .nblk => 0x40
  | .bidx => 0x48
  | .pos => 0x50
  | .spanoff => 0x58
  | .spanlen => 0x60
  | .bsize => 0x68

/-- The register at an offset, if there is one (R71). -/
def Reg.ofOffset : Nat → Option Reg
  | 0x00 => some .id
  | 0x08 => some .cap
  | 0x10 => some .cfg
  | 0x18 => some .status
  | 0x20 => some .err
  | 0x28 => some .arg
  | 0x30 => some .cmd
  | 0x38 => some .fsize
  | 0x40 => some .nblk
  | 0x48 => some .bidx
  | 0x50 => some .pos
  | 0x58 => some .spanoff
  | 0x60 => some .spanlen
  | 0x68 => some .bsize
  | _ => none

/-- One row of R111: the descriptor's bits under `mask` are `pattern`. -/
def descMatches (d mask pattern : Desc) : Bool := d &&& mask == pattern

/-- A register row of R111 with its further condition `ADDR ≤ 0x68`. -/
def registerRow (mk : Reg → Instr) (d : Desc) : Except DecodeError Instr :=
  match Reg.ofOffset (addrField d).toNat with
  | some r => .ok (mk r)
  | none => .error .busError

/-- A `BUF` row of R111 with its further condition `ADDR − 0x100000 < BS_MAX`. -/
def bufRow (gMax : Nat) (mk : BitVec 20 → Instr) (d : Desc) : Except DecodeError Instr :=
  let off : BitVec 20 := d.extractLsb' 0 20
  if off.toNat < Config.bsMax gMax then .ok (mk off) else .error .busError

/-- A `RAS` row of R111 with its further condition `ADDR − 0x400000 < RAS_MAX`. -/
def rasRow (gMax : Nat) (mk : BitVec 22 → Instr) (d : Desc) : Except DecodeError Instr :=
  let off : BitVec 22 := d.extractLsb' 0 22
  if off.toNat < Config.rasMax gMax then .ok (mk off) else .error .busError

/-- Classifying a descriptor, in the order of R111's rows. -/
def decodeAccess (gMax : Nat) (d : Desc) : Except DecodeError Instr :=
  if descMatches d 0xFFFFFF87#32 0x30000000#32 then registerRow .regRd d
  else if descMatches d 0xFFFFFF87#32 0xB0000000#32 then registerRow .regWr d
  else if descMatches d 0xFFF00000#32 0x00100000#32 then bufRow gMax .bufRd d
  else if descMatches d 0xFFF00000#32 0x80100000#32 then bufRow gMax .bufWr d
  else if descMatches d 0xFFC00000#32 0x00400000#32 then rasRow gMax .rasRd d
  else if descMatches d 0xFFC00000#32 0x80400000#32 then rasRow gMax .rasWr d
  else .error .busError

/-! ### Both formats by their width, and the opcode table's numbering of bits -/

/-- The instruction that `nbits` bits of value `w` are, in a build with this `G_MAX`: 64 bits are a
command word (R100), 32 bits a descriptor (R110), and nothing else is an instruction. -/
def decodeBits (gMax nbits w : Nat) : Option Instr :=
  if nbits = 64 ∧ w < 2 ^ 64 then (decodeCommand (BitVec.ofNat 64 w)).toOption
  else if nbits = 32 ∧ w < 2 ^ 32 then (decodeAccess gMax (BitVec.ofNat 32 w)).toOption
  else none

/-- What the decoder reads from a row's bits, in the default build (R10). A command word and a
descriptor are each one whole word, so the table's bit numbers are the word's own (R83, R109). -/
def decodeTableWord (nbits w : Nat) : Option Instr := decodeBits Config.gMaxDefault nbits w

/-! ### The encoder -/

/-- The width of an instruction's format: `CW` 64 bits (R100), `HT` 32 bits (R110). -/
def encodeWidth : Instr → Nat
  | .nop | .cfg | .encInit | .encFrame | .encEnd | .b2r | .r2b => 64
  | .decInit | .decBlock | .decEnd | .abort | .clrerr => 64
  | .regRd _ | .regWr _ | .bufRd _ | .bufWr _ | .rasRd _ | .rasWr _ => 32

/-- The word of an instruction: `OP` for a command (R106), `(W << 31) | (SZ << 28) | ADDR` for a host
operation (R110). -/
def encodeWord : Instr → Nat
  | .nop => 0x00
  | .cfg => 0x01
  | .encInit => 0x02
  | .encFrame => 0x03
  | .encEnd => 0x04
  | .b2r => 0x05
  | .r2b => 0x06
  | .decInit => 0x07
  | .decBlock => 0x08
  | .decEnd => 0x09
  | .abort => 0x0A
  | .clrerr => 0x0B
  | .regRd r => 0x30000000 + r.offset
  | .regWr r => 0xB0000000 + r.offset
  | .bufRd off => Config.bufBase + off.toNat
  | .bufWr off => 0x80000000 + Config.bufBase + off.toNat
  | .rasRd off => Config.rasBase + off.toNat
  | .rasWr off => 0x80000000 + Config.rasBase + off.toNat

/-- The words of an instruction: how many bits, and their value. -/
def encode (i : Instr) : Nat × Nat := (encodeWidth i, encodeWord i)

end Sys2Proof
end

