-- ==== Sys2Proof/Machine/State.lean ====
section
/-! DEFINITION. The state of the bit-serializer (R30), the host port's inputs, the reasons a step can
stop, and the state after reset (R57). Everything is plain data. -/

namespace Sys2Proof.Machine

/-- `STATUS.MODE`, the session mode; the value 3 is never held (R41). -/
inductive Mode where
  /-- 0: no session is open. -/
  | idle
  /-- 1: an encode session is open. -/
  | enc
  /-- 2: a decode session is open. -/
  | dec
  deriving DecidableEq, Repr

/-- `ERR.CODE`; the codes 0x08 … 0xFF are never recorded (R241). -/
inductive ErrCode where
  /-- 0x00: no error latched. -/
  | none
  /-- 0x01: a command word that is no command (R107). -/
  | illegal
  /-- 0x02: a command not legal in the current mode (R114). -/
  | mode
  /-- 0x03: a `CFG` operand out of range (R221). -/
  | badarg
  /-- 0x04: `ENC_FRAME` with every block framed (R136). -/
  | seq
  /-- 0x05: a decode stream found short by `DEC_END` (R196). -/
  | incompleteDec
  /-- 0x06: an encode session closed with blocks unframed by `ENC_END` (R138). -/
  | incompleteEnc
  /-- 0x07: a bus error (R78). -/
  | bus
  deriving DecidableEq, Repr

/-- A buffer's contents: (index, byte) pairs, indices strictly rising, no listed byte 0x00. An index
that is not listed holds 0x00. Every contents of a buffer has exactly one such list. -/
abbrev Memory := List Host.Cell

/-- One host access: its descriptor, and its write data beside it (R110). -/
structure Access where
  desc : Desc
  data : Word
  deriving DecidableEq, Repr

/-- What reaches the block from outside: a host access (R80), or the platform's reset together with the
draw of the unspecified buffer contents (R57, R270); bytes a draw does not list are 0x00. -/
inductive Input where
  | access (a : Access)
  | reset (bufDraw rasDraw : List Byte)
  deriving DecidableEq, Repr

/-- The state: one field per item of R30, and then the model's own three fields for the host port. -/
structure State where
  /-- `ID` (R31) -/
  id : Word
  /-- `CAP`: `G_MAX` in bits [15:0] (R32) -/
  cap : Word
  /-- `CFG.GDIV8` (R33) -/
  gdiv8 : Byte
  /-- `CFG.THRESH` (R33) -/
  thresh : Byte
  /-- `STATUS.ERR` (R36) -/
  err : Bool
  /-- `STATUS.DONE` (R37) -/
  done : Bool
  /-- `STATUS.HDR` (R38) -/
  hdr : Bool
  /-- `STATUS.EXTRA` (R39) -/
  extra : Bool
  /-- `STATUS.INC` (R40) -/
  inc : Bool
  /-- `STATUS.MODE` (R41) -/
  mode : Mode
  /-- `ERR.CODE` (R42) -/
  code : ErrCode
  /-- `ARG` (R43) -/
  arg : Word
  /-- `FSIZE` (R45) -/
  fsize : Word
  /-- `NBLK` (R46) -/
  nblk : Word
  /-- `BIDX` (R47) -/
  bidx : Word
  /-- `POS` (R48) -/
  pos : Word
  /-- `SPANOFF` (R49) -/
  spanoff : Word
  /-- `SPANLEN` (R50) -/
  spanlen : Word
  /-- `BUF` (R52) -/
  buf : Memory
  /-- `RAS` (R53) -/
  ras : Memory
  /-- The model's own: the inputs still to come, oldest first. DESIGN CHOICE, log entry 2. -/
  inputs : List Input
  /-- The model's own: the write data beside the current access. DESIGN CHOICE, log entry 2. -/
  wdata : Word
  /-- The model's own: the data the last read returned. DESIGN CHOICE, log entry 3. -/
  rdata : Word
  deriving DecidableEq, Repr

/-- The reasons the machine can stop with a fault: none. Nobody raises one, since "nothing in this spec
makes the block stuck, hang or enter an undefined state" (R257). Safe: no stop is hidden. -/
inductive Fault where
  deriving DecidableEq, Repr

/-- The reasons an instruction can be refused. -/
inductive Refusal where
  /-- Raised by an arm of `exec` whose instruction has no meaning yet; no arm is such. Safe. -/
  | notModelled (mnemonic : String)
  deriving DecidableEq, Repr

/-- What a meaning answers. -/
abbrev Result := Host.Outcome State Fault Refusal

/-- The state after reset (R57), in the default build (R10), with the empty draw of buffer contents
(DESIGN CHOICE, log entry 4: every byte of `BUF` and `RAS` is 0x00, where the spec leaves each byte
unspecified; `platformReset` takes any draw). The host has issued nothing yet. -/
def State.reset : State where
  id := Config.idValue
  cap := BitVec.ofNat 64 Config.gMaxDefault
  gdiv8 := Config.gdiv8Reset
  thresh := Config.threshReset
  err := false
  done := false
  hdr := false
  extra := false
  inc := false
  mode := .idle
  code := .none
  arg := 0
  fsize := 0
  nblk := 0
  bidx := 0
  pos := 0
  spanoff := 0
  spanlen := 0
  buf := []
  ras := []
  inputs := []
  wdata := 0
  rdata := 0

end Sys2Proof.Machine
end

