-- ==== Sys2Proof/Machine/Operands.lean ====
section
/-! DEFINITION. The quantities the rules compute with: the build's and the configuration's sizes
(R18), the operand fields of `ARG` (R104, R105), the block count (R130), the big-endian image of the
size (R17, R81), and the bit-serializer's functions (R160 to R164, R170). -/

namespace Sys2Proof.Machine

/-! ### Sizes -/

/-- `G_MAX`, bits [15:0] of `CAP` (R32). -/
def State.gMax (s : State) : Nat := (s.cap.extractLsb' 0 16).toNat

/-- `G = 8 × GDIV8` (R18). -/
def State.grid (s : State) : Nat := 8 * s.gdiv8.toNat

/-- `bs = 8 × GDIV8²` (R18). -/
def State.blockSize (s : State) : Nat := 8 * (s.gdiv8.toNat * s.gdiv8.toNat)

/-- `N(F, bs) = ceil((F + 8) / bs)`, on unbounded integers (R16, R130). -/
def blockCount (f bs : Nat) : Nat := (f + 8 + bs - 1) / bs

/-! ### Operands in `ARG` -/

/-- `ARG[7:0]`, the new `GDIV8` (R104). -/
def argGdiv8 (arg : Word) : Byte := arg.extractLsb' 0 8

/-- `ARG[15:8]`, the new `THRESH` (R104). -/
def argThresh (arg : Word) : Byte := arg.extractLsb' 8 8

/-- `ARG[63:16]`, which must be 0 (R104). -/
def argRsv (arg : Word) : BitVec 48 := arg.extractLsb' 16 48

/-- The range check of `CFG`'s operand (R221). -/
def cfgOperandBad (gMax : Nat) (arg : Word) : Bool :=
  decide (argRsv arg ≠ 0#48 ∨ argGdiv8 arg = 0#8 ∨ gMax / 8 < (argGdiv8 arg).toNat
    ∨ argThresh arg = 255#8)

/-! ### The size field's byte order -/

/-- `be64(F)[k] = F[63−8k : 56−8k]` (R17). -/
def be64 (f : Word) (k : Nat) : Byte := f.extractLsb' (56 - 8 * k) 8

/-- `unbe64(b0 … b7) = Σ b_k × 2^(8(7−k))` (R17). -/
def unbe64 (b : Nat → Byte) : Nat :=
  (List.range 8).foldl (fun acc k => acc * 256 + (b k).toNat) 0

/-! ### The bit-serializer -/

/-- `ser8(b)`: the bits of a byte, the most significant first (R160). -/
def ser8 (b : Byte) : List Bool := (List.range 8).map fun k => b.getLsbD (7 - k)

/-- `deser8(s) = Σ s_k × 2^(7−k)` (R161). -/
def deser8 (bits : List Bool) : Byte :=
  BitVec.ofNat 8 (bits.foldl (fun acc b => acc * 2 + b.toNat) 0)

/-- `bitAt(B, i) = B[i div 8][7 − (i mod 8)]` (R162). -/
def bitAt (b : Nat → Byte) (i : Nat) : Bool := (b (i / 8)).getLsbD (7 - i % 8)

/-- `px(0) = 0`, `px(1) = 255` (R164). -/
def px (bit : Bool) : Byte := if bit then 255#8 else 0#8

/-- `thr(p) = 1` if `p > THRESH`, compared as unsigned integers (R170). -/
def thr (thresh p : Byte) : Bool := decide (thresh.toNat < p.toNat)

/-- The bits that the eight pixels of block byte `j` threshold to (R171). -/
def thrBits (thresh : Byte) (pixel : Nat → Byte) (j : Nat) : List Bool :=
  (List.range 8).map fun k => thr thresh (pixel (8 * j + k))

end Sys2Proof.Machine
end

