-- ==== Sys2Proof/Machine/Flags.lean ====
section
/-! DEFINITION. The words software reads for `CFG`, `STATUS` and `ERR` (R33, R35, R42), the error latch
(R244), and the modes each command is legal in (R106, R114). -/

namespace Sys2Proof.Machine

/-- `STATUS.MODE` as a number (R41). -/
def Mode.toNat : Mode → Nat
  | .idle => 0
  | .enc => 1
  | .dec => 2

/-- The number of an error code (R241). -/
def ErrCode.toNat : ErrCode → Nat
  | .none => 0
  | .illegal => 1
  | .mode => 2
  | .badarg => 3
  | .seq => 4
  | .incompleteDec => 5
  | .incompleteEnc => 6
  | .bus => 7

/-- `CFG`: `THRESH` in bits [15:8], `GDIV8` in bits [7:0], the rest hardwired 0 (R33). -/
def cfgWord (s : State) : Word := 0#48 ++ s.thresh ++ s.gdiv8

/-- `STATUS`: `MODE` in bits [9:8], then three hardwired zeros, `INC`, `EXTRA`, `HDR`, `DONE`, `ERR` in
bits [4:0], the rest hardwired 0 (R35). -/
def statusWord (s : State) : Word :=
  0#54 ++ BitVec.ofNat 2 s.mode.toNat ++ 0#3 ++ BitVec.ofBool s.inc ++ BitVec.ofBool s.extra
    ++ BitVec.ofBool s.hdr ++ BitVec.ofBool s.done ++ BitVec.ofBool s.err

/-- `ERR`: `CODE` in bits [7:0], the rest hardwired 0 (R42). -/
def errWord (s : State) : Word := 0#56 ++ BitVec.ofNat 8 s.code.toNat

/-- `record_error(code)`: the first error since the last `CLRERR` or reset is kept (R244). -/
def recordError (c : ErrCode) (s : State) : State :=
  if s.err then s else { s with err := true, code := c }

/-- The modes an instruction is legal in (R106, R114). Host operations are legal in every mode (R90). -/
def legalIn : Instr → Mode → Bool
  | .cfg, m | .encInit, m | .decInit, m => m == .idle
  | .encFrame, m | .encEnd, m => m == .enc
  | .decBlock, m | .decEnd, m => m == .dec
  | .nop, _ | .b2r, _ | .r2b, _ | .abort, _ | .clrerr, _ => true
  | .regRd _, _ | .regWr _, _ | .bufRd _, _ | .bufWr _, _ | .rasRd _, _ | .rasWr _, _ => true

end Sys2Proof.Machine
end

