-- ==== Sys2Proof/Machine/Ops.lean ====
section
/-! DEFINITION. The shared operations: reading and writing a buffer, reading a register (R73), rejecting
a command or an access (R245, R78), and the platform's reset (R270). The block has no trap: an error
is recorded and the block goes on (R240), so `reject` and `busError` are what other hardware does by
taking an exception, and there is no return from one (R249). -/

namespace Sys2Proof.Machine

/-! ### Buffers -/

/-- The canonical form: indices strictly rising, no listed byte 0x00. -/
abbrev Memory.wf (m : Memory) : Prop :=
  m.Pairwise (fun x y => x.1 < y.1) ∧ ∀ c ∈ m, c.2 ≠ 0#8

/-- Every listed index lies below the buffer's physical size (R52, R53). -/
abbrev Memory.bounded (size : Nat) (m : Memory) : Prop := ∀ c ∈ m, c.1 < size

/-- The byte at an index; one that is not listed is 0x00. -/
def Memory.read : Memory → Nat → Byte
  | [], _ => 0#8
  | (k, b) :: m, a => if k = a then b else Memory.read m a

/-- The canonical list of the `n` bytes `f lo`, `f (lo + 1)`, …, at indices from `lo`. -/
def Memory.image (f : Nat → Byte) : Nat → Nat → Memory
  | _, 0 => []
  | lo, n + 1 =>
    if f lo = 0#8 then Memory.image f (lo + 1) n else (lo, f lo) :: Memory.image f (lo + 1) n

/-- Writes the `n` bytes `f lo`, …, `f (lo + n − 1)` at indices from `lo`, and no other byte. -/
def Memory.writeRange (m : Memory) (lo n : Nat) (f : Nat → Byte) : Memory :=
  m.filter (fun c => c.1 < lo) ++ Memory.image f lo n ++ m.filter (fun c => lo + n ≤ c.1)

/-- Writes one byte. -/
def Memory.write (m : Memory) (a : Nat) (b : Byte) : Memory := m.writeRange a 1 fun _ => b

/-- The contents a draw stands for: its bytes at indices from `lo` on. -/
def Memory.ofBytes : Nat → List Byte → Memory
  | _, [] => []
  | lo, b :: bs =>
    if b = 0#8 then Memory.ofBytes (lo + 1) bs else (lo, b) :: Memory.ofBytes (lo + 1) bs

/-! ### Registers -/

/-- The value a register reads as (R31 to R51, R73): `CMD` reads 0, `BSIZE` is computed. -/
def readReg (s : State) : Reg → Word
  | .id => s.id
  | .cap => s.cap
  | .cfg => cfgWord s
  | .status => statusWord s
  | .err => errWord s
  | .arg => s.arg
  | .cmd => 0#64
  | .fsize => s.fsize
  | .nblk => s.nblk
  | .bidx => s.bidx
  | .pos => s.pos
  | .spanoff => s.spanoff
  | .spanlen => s.spanlen
  | .bsize => BitVec.ofNat 64 s.blockSize

/-! ### Rejection -/

/-- `reject(code)`: records the error and changes no other state (R245). -/
def reject (c : ErrCode) (s : State) : Result := .next (recordError c s)

/-- Runs a command's own rule where its mode is legal, and rejects it with `MODE` elsewhere (R100). -/
def whenLegal (i : Instr) (s : State) (run : Result) : Result :=
  if legalIn i s.mode then run else reject .mode s

/-- A write that is a bus error: records `BUS`, and nothing else (R78). -/
def busErrorWrite (s : State) : State := recordError .bus s

/-- A read that is a bus error: records `BUS` and returns 0 (R78). -/
def busErrorRead (s : State) : State := { recordError .bus s with rdata := 0#64 }

/-! ### Inputs -/

/-- The state in which an access executes: taken from the inputs, its write data beside it (R110). -/
def beginAccess (a : Access) (rest : List Input) (s : State) : State :=
  { s with inputs := rest, wdata := a.data }

/-- The platform's reset (R270): every register as R57 says, `CAP` as the build has it, the buffers
holding the draw. What the host has yet to issue stays (log entry 11). -/
def platformReset (bufDraw rasDraw : List Byte) (s : State) : State :=
  { State.reset with
    cap := s.cap
    buf := Memory.ofBytes 0 (bufDraw.take (Config.bsMax s.gMax))
    ras := Memory.ofBytes 0 (rasDraw.take (Config.rasMax s.gMax))
    inputs := s.inputs }

end Sys2Proof.Machine
end

