-- ==== Sys2Proof/Machine/Control.lean ====
section
/-! DEFINITION. The control commands `NOP`, `CFG`, `ABORT` and `CLRERR` (43_control.md). -/

namespace Sys2Proof.Machine

/-- `NOP` (R220). -/
def execNop (s : State) : Result := .next s

/-- `CFG` (R221). -/
def execCfg (s : State) : Result :=
  whenLegal .cfg s <|
    if cfgOperandBad s.gMax s.arg then reject .badarg s
    else .next { s with gdiv8 := argGdiv8 s.arg, thresh := argThresh s.arg }

/-- `ABORT` (R223). -/
def execAbort (s : State) : Result := .next { s with mode := .idle }

/-- `CLRERR` (R224). -/
def execClrerr (s : State) : Result := .next { s with err := false, code := .none }

end Sys2Proof.Machine
end

