-- ==== Sys2Proof/Machine/Joiner.lean ====
section
/-! DEFINITION. The block-header-framer in the decode direction: `DEC_INIT`, `DEC_BLOCK` and `DEC_END`
(42_joiner.md). -/

namespace Sys2Proof.Machine

/-- `DEC_INIT` (R192). -/
def execDecInit (s : State) : Result :=
  whenLegal .decInit s <| .next
    { s with
      fsize := 0
      nblk := 0
      bidx := 0
      pos := 0
      spanoff := 0
      spanlen := 0
      done := false
      hdr := false
      extra := false
      inc := false
      mode := .dec }

/-- The first part of `DEC_BLOCK` (R193): a header block sets the size and the block count, a data block
or a block beyond the payload sets the span. -/
def parsedBlock (s : State) : State :=
  if s.bidx = 0 then
    let f := unbe64 s.buf.read
    { s with
      fsize := BitVec.ofNat 64 f
      nblk := BitVec.ofNat 64 (blockCount f s.blockSize)
      hdr := true
      spanoff := 8
      spanlen := BitVec.ofNat 64 (min (s.blockSize - 8) f) }
  else if s.pos.toNat < s.fsize.toNat then
    { s with
      spanoff := 0
      spanlen := BitVec.ofNat 64 (min s.blockSize (s.fsize.toNat - s.pos.toNat)) }
  else { s with spanoff := 0, spanlen := 0, extra := true }

/-- `DEC_BLOCK` (R193): after the block is parsed, `POS` moves past the span and `BIDX` counts the block,
saturating (R199). -/
def execDecBlock (s : State) : Result :=
  whenLegal .decBlock s <|
    let p := parsedBlock s
    let pos' := p.pos.toNat + p.spanlen.toNat
    .next
      { p with
        pos := BitVec.ofNat 64 pos'
        bidx := BitVec.ofNat 64 (min (p.bidx.toNat + 1) (2 ^ 64 - 1))
        done := decide (pos' = p.fsize.toNat) }

/-- `DEC_END` (R196). -/
def execDecEnd (s : State) : Result :=
  whenLegal .decEnd s <|
    if s.hdr = false ∨ s.pos.toNat < s.fsize.toNat then
      .next { recordError .incompleteDec { s with inc := true } with mode := .idle }
    else .next { s with mode := .idle }

end Sys2Proof.Machine
end

