-- ==== Sys2Proof/Machine/Mapper.lean ====
section
/-! DEFINITION. The raster-bit-mapper: `B2R` and `R2B` (41_mapper.md). Both are legal in every mode. -/

namespace Sys2Proof.Machine

/-- `B2R` (R165): pixel `i` of the raster is `px` of bit `i` of the block. -/
def execB2r (s : State) : Result :=
  .next { s with ras := s.ras.writeRange 0 (s.grid * s.grid) fun i => px (bitAt s.buf.read i) }

/-- `R2B` (R171): byte `j` of the block packs the eight thresholded pixels from `8j` on. -/
def execR2b (s : State) : Result :=
  .next { s with
    buf := s.buf.writeRange 0 s.blockSize fun j => deser8 (thrBits s.thresh s.ras.read j) }

end Sys2Proof.Machine
end

