-- ==== Sys2Proof/Machine/Splitter.lean ====
section
/-! DEFINITION. The block-header-framer in the encode direction: `ENC_INIT`, `ENC_FRAME` and `ENC_END`
(40_splitter.md). -/

namespace Sys2Proof.Machine

/-- `ENC_INIT` (R135). -/
def execEncInit (s : State) : Result :=
  whenLegal .encInit s <| .next
    { s with
      fsize := s.arg
      nblk := BitVec.ofNat 64 (blockCount s.arg.toNat s.blockSize)
      bidx := 0
      pos := 0
      spanoff := 8
      spanlen := BitVec.ofNat 64 (min (s.blockSize - 8) s.arg.toNat)
      done := false
      hdr := false
      extra := false
      inc := false
      mode := .enc }

/-- The contents of `BUF` after `ENC_FRAME`: the header bytes in front of the first block, then zero
padding from the end of the span to the end of the block; the span itself is not written (R136). -/
def framedBuf (s : State) : Memory :=
  let padFrom := s.spanoff.toNat + s.spanlen.toNat
  let headed := if s.bidx = 0 then s.buf.writeRange 0 8 (be64 s.fsize) else s.buf
  headed.writeRange padFrom (s.blockSize - padFrom) fun _ => 0#8

/-- `ENC_FRAME` (R136). -/
def execEncFrame (s : State) : Result :=
  whenLegal .encFrame s <|
    if s.nblk.toNat ≤ s.bidx.toNat then reject .seq s
    else
      let pos' := s.pos.toNat + s.spanlen.toNat
      let bidx' := s.bidx.toNat + 1
      let last := decide (bidx' = s.nblk.toNat)
      .next
        { s with
          buf := framedBuf s
          pos := BitVec.ofNat 64 pos'
          bidx := BitVec.ofNat 64 bidx'
          done := s.done || last
          spanoff := 0
          spanlen :=
            if last then 0 else BitVec.ofNat 64 (min s.blockSize (s.fsize.toNat - pos')) }

/-- `ENC_END` (R138). -/
def execEncEnd (s : State) : Result :=
  whenLegal .encEnd s <|
    if s.bidx.toNat < s.nblk.toNat then
      .next { recordError .incompleteEnc { s with inc := true } with mode := .idle }
    else .next { s with mode := .idle }

end Sys2Proof.Machine
end

