-- ==== Sys2Proof/Machine/HostAccess.lean ====
section
/-! DEFINITION. The host operations: register accesses (R73, R74), with the execution of a command word
written to `CMD` (R100), and window accesses (R75, R76). -/

namespace Sys2Proof.Machine

/-- `execute(w)` (R100): a word that is no command is rejected with `ILLEGAL`; a command runs, and checks
its mode itself. The decoder of command words names no host operation. -/
def executeWord (w : Word) (s : State) : Result :=
  match decodeCommand w with
  | .error _ => reject .illegal s
  | .ok .nop => execNop s
  | .ok .cfg => execCfg s
  | .ok .encInit => execEncInit s
  | .ok .encFrame => execEncFrame s
  | .ok .encEnd => execEncEnd s
  | .ok .b2r => execB2r s
  | .ok .r2b => execR2b s
  | .ok .decInit => execDecInit s
  | .ok .decBlock => execDecBlock s
  | .ok .decEnd => execDecEnd s
  | .ok .abort => execAbort s
  | .ok .clrerr => execClrerr s
  | .ok (.regRd _) | .ok (.regWr _) => reject .illegal s
  | .ok (.bufRd _) | .ok (.bufWr _) | .ok (.rasRd _) | .ok (.rasWr _) => reject .illegal s

/-- `REG_RD` (R73): returns the register's value and changes no state of the block. -/
def execRegRd (r : Reg) (s : State) : Result := .next { s with rdata := readReg s r }

/-- `REG_WR` (R74): `ARG` stores the data, `CMD` executes it, and every other register is read-only. -/
def execRegWr (r : Reg) (s : State) : Result :=
  match r with
  | .arg => .next { s with arg := s.wdata }
  | .cmd => executeWord s.wdata s
  | .id | .cap | .cfg | .status | .err | .fsize | .nblk => .next (busErrorWrite s)
  | .bidx | .pos | .spanoff | .spanlen | .bsize => .next (busErrorWrite s)

/-- `BUF_RD` (R75): returns the byte, zero-extended (R110); beyond `BS_MAX` a bus error (R78). -/
def execBufRd (off : BitVec 20) (s : State) : Result :=
  if off.toNat < Config.bsMax s.gMax then
    .next { s with rdata := (s.buf.read off.toNat).setWidth 64 }
  else .next (busErrorRead s)

/-- `BUF_WR` (R75): stores data bits [7:0] (R110); beyond `BS_MAX` a bus error (R78). -/
def execBufWr (off : BitVec 20) (s : State) : Result :=
  if off.toNat < Config.bsMax s.gMax then
    .next { s with buf := s.buf.write off.toNat (s.wdata.extractLsb' 0 8) }
  else .next (busErrorWrite s)

/-- `RAS_RD` (R76): returns the cell, zero-extended (R110); beyond `RAS_MAX` a bus error (R78). -/
def execRasRd (off : BitVec 22) (s : State) : Result :=
  if off.toNat < Config.rasMax s.gMax then
    .next { s with rdata := (s.ras.read off.toNat).setWidth 64 }
  else .next (busErrorRead s)

/-- `RAS_WR` (R76): stores data bits [7:0] (R110); beyond `RAS_MAX` a bus error (R78). -/
def execRasWr (off : BitVec 22) (s : State) : Result :=
  if off.toNat < Config.rasMax s.gMax then
    .next { s with ras := s.ras.write off.toNat (s.wdata.extractLsb' 0 8) }
  else .next (busErrorWrite s)

end Sys2Proof.Machine
end

