-- ==== Sys2Proof/Machine/Dispatch.lean ====
section
/-! DEFINITION. One arm per instruction, each a direct call of its meaning. -/

namespace Sys2Proof.Machine

/-- The meaning of each instruction. -/
def exec (i : Instr) (s : State) : Host.Outcome State Fault Refusal :=
  match i with
  -- control (43_control.md)
  | .nop => Sys2Proof.Machine.execNop s
  | .cfg => Sys2Proof.Machine.execCfg s
  | .abort => Sys2Proof.Machine.execAbort s
  | .clrerr => Sys2Proof.Machine.execClrerr s
  -- framer, encode direction (40_splitter.md)
  | .encInit => Sys2Proof.Machine.execEncInit s
  | .encFrame => Sys2Proof.Machine.execEncFrame s
  | .encEnd => Sys2Proof.Machine.execEncEnd s
  -- mapper (41_mapper.md)
  | .b2r => Sys2Proof.Machine.execB2r s
  | .r2b => Sys2Proof.Machine.execR2b s
  -- framer, decode direction (42_joiner.md)
  | .decInit => Sys2Proof.Machine.execDecInit s
  | .decBlock => Sys2Proof.Machine.execDecBlock s
  | .decEnd => Sys2Proof.Machine.execDecEnd s
  -- host operations (20_memory.md)
  | .regRd r => Sys2Proof.Machine.execRegRd r s
  | .regWr r => Sys2Proof.Machine.execRegWr r s
  | .bufRd off => Sys2Proof.Machine.execBufRd off s
  | .bufWr off => Sys2Proof.Machine.execBufWr off s
  | .rasRd off => Sys2Proof.Machine.execRasRd off s
  | .rasWr off => Sys2Proof.Machine.execRasWr off s

end Sys2Proof.Machine
end

