-- ==== Sys2Proof/Machine/Fetch.lean ====
section
/-! DEFINITION. Taking the next input. The block fetches no instructions (R55); what it executes is the
host's next access (R3, R80). -/

namespace Sys2Proof.Machine

/-- What the next step has to do. -/
inductive Fetched where
  /-- No instruction runs: this is the next state. -/
  | settled (t : State)
  /-- The instruction the host's access asks for, and the state it executes in. -/
  | run (i : Instr) (s : State)
  deriving DecidableEq, Repr

/-- The host's access `a` is classified (R111) and runs, or is a bus error (R78). -/
def fetchAccess (a : Access) (s : State) : Fetched :=
  match decodeAccess s.gMax a.desc with
  | .ok i => .run i s
  | .error _ => .settled (if wField a.desc then busErrorWrite s else busErrorRead s)

/-- Takes the next input: with none pending the block waits unchanged (log entry 5), a platform reset
takes effect at once (R270), and a host access is classified. -/
def fetch (s : State) : Fetched :=
  match s.inputs with
  | [] => .settled s
  | .reset bufDraw rasDraw :: rest => .settled (platformReset bufDraw rasDraw { s with inputs := rest })
  | .access a :: rest => fetchAccess a (beginAccess a rest s)

/-- The access by which a host has an instruction's bits executed: a command word is written to `CMD`
(R44, R100), a descriptor is issued as it stands, beside the data lines as they are. -/
def accessFor (nbits w : Nat) (lines : Word) : Access :=
  if nbits = 64 then ⟨0xB0000030#32, BitVec.ofNat 64 w⟩ else ⟨BitVec.ofNat 32 w, lines⟩

end Sys2Proof.Machine
end

