-- ==== Sys2Proof/Machine/Step.lean ====
section
/-! DEFINITION. One step: the next input takes its whole effect (R80). -/

namespace Sys2Proof.Machine

/-- Takes the next input, and runs the instruction it asks for. -/
def step (s : State) : Host.Outcome State Fault Refusal :=
  match fetch s with
  | .settled t => .next t
  | .run i s' => exec i s'

/-- `s` with the instruction as the host's very next access, before what the host has yet to issue. -/
def State.withFetchWord (s : State) (nbits w : Nat) : State :=
  { s with inputs := .access (accessFor nbits w s.wdata) :: s.inputs }

end Sys2Proof.Machine
end

