-- ==== Sys2Proof/Safety.lean ====
section
/-! DEFINITION. The terms the claims are stated in: the invariants of R59, the legality of a host access as
20_memory.md states it, the command a register write performs, the document's block layouts (R132,
R133), and a failed run (R257). -/

namespace Sys2Proof.Machine

/-! ### Invariants -/

/-- R59 item 5: an open encode session. -/
structure EncodeSession (s : State) : Prop where
  nblk_eq : s.nblk.toNat = blockCount s.fsize.toNat s.blockSize
  nblk_pos : 1 ≤ s.nblk.toNat
  bidx_le : s.bidx.toNat ≤ s.nblk.toNat
  pos_eq : s.pos.toNat = min s.fsize.toNat (s.bidx.toNat * s.blockSize - 8)
  span_done : s.bidx = s.nblk → s.spanlen = 0
  span_off : s.bidx ≠ s.nblk → s.spanoff = if s.bidx = 0 then 8 else 0
  span_len : s.bidx ≠ s.nblk →
    s.spanlen.toNat = min (s.blockSize - s.spanoff.toNat) (s.fsize.toNat - s.pos.toNat)
  done_iff : s.done = true ↔ s.bidx = s.nblk

/-- R59 item 6: an open decode session before its header. -/
structure DecodeBeforeHeader (s : State) : Prop where
  bidx_eq : s.bidx = 0
  pos_eq : s.pos = 0
  fsize_eq : s.fsize = 0
  nblk_eq : s.nblk = 0

/-- R59 item 7: an open decode session after its header. The rule gives `pos_eq` as long as `BIDX` has not
saturated; it is required here of a saturated `BIDX` too, which makes the invariant the stronger. -/
structure DecodeAfterHeader (s : State) : Prop where
  bidx_pos : 1 ≤ s.bidx.toNat
  nblk_eq : s.nblk.toNat = blockCount s.fsize.toNat s.blockSize
  pos_eq : s.pos.toNat = min s.fsize.toNat (s.bidx.toNat * s.blockSize - 8)
  done_iff : s.done = true ↔ s.pos = s.fsize

/-- What holds of the block from reset onward: the constants (R31, R32), the eight items of R59 (item 2 is
the type of `mode`), and the two buffers in canonical form within their sizes (R52, R53). -/
structure Inv (s : State) : Prop where
  id_eq : s.id = Config.idValue
  cap_eq : s.cap = BitVec.ofNat 64 s.gMax
  gMax_legal : Config.LegalGMax s.gMax
  gdiv8_pos : 1 ≤ s.gdiv8.toNat
  gdiv8_le : s.gdiv8.toNat ≤ s.gMax / 8
  thresh_le : s.thresh.toNat ≤ 254
  pos_le : s.pos.toNat ≤ s.fsize.toNat
  spanoff_cases : s.spanoff = 0 ∨ s.spanoff = 8
  span_fits : s.mode ≠ .idle → s.spanoff.toNat + s.spanlen.toNat ≤ s.blockSize
  encode : s.mode = .enc → EncodeSession s
  decode_before : s.mode = .dec → s.hdr = false → DecodeBeforeHeader s
  decode_after : s.mode = .dec → s.hdr = true → DecodeAfterHeader s
  latch : s.err = false ↔ s.code = .none
  buf_wf : s.buf.wf
  buf_bounded : s.buf.bounded (Config.bsMax s.gMax)
  ras_wf : s.ras.wf
  ras_bounded : s.ras.bounded (Config.rasMax s.gMax)

/-- What the flags of `STATUS` say of an open session (R37 to R40): none is incomplete; an encode session
has no header parsed and no extra block; a decode session before its header is not done, and one with
an extra block is done. -/
structure SessionFlags (s : State) : Prop where
  inc_closed : s.mode ≠ .idle → s.inc = false
  encode_plain : s.mode = .enc → s.hdr = false ∧ s.extra = false
  before_header : s.mode = .dec → s.hdr = false → s.done = false ∧ s.extra = false
  extra_done : s.mode = .dec → s.extra = true → s.done = true

/-! ### Accesses and commands -/

/-- A register access of legal width, alignment and offset (R72). -/
def RegisterAccess (d : Desc) : Prop :=
  (szField d).toNat = 3 ∧ (htRsvField d).toNat = 0 ∧ (addrField d).toNat % 8 = 0
    ∧ (addrField d).toNat < 0x70

/-- A one-byte access inside the `BUF` window (R75, R77). -/
def BufAccess (gMax : Nat) (d : Desc) : Prop :=
  (szField d).toNat = 0 ∧ (htRsvField d).toNat = 0 ∧ 0x100000 ≤ (addrField d).toNat
    ∧ (addrField d).toNat < 0x100000 + Config.bsMax gMax

/-- A one-byte access inside the `RAS` window (R76, R77). -/
def RasAccess (gMax : Nat) (d : Desc) : Prop :=
  (szField d).toNat = 0 ∧ (htRsvField d).toNat = 0 ∧ 0x400000 ≤ (addrField d).toNat
    ∧ (addrField d).toNat < 0x400000 + Config.rasMax gMax

/-- A write to a register other than `ARG` and `CMD` (R74): the register is read-only. -/
def ReadOnlyWrite (d : Desc) : Prop :=
  wField d = true ∧ RegisterAccess d ∧ (addrField d).toNat ≠ 0x28 ∧ (addrField d).toNat ≠ 0x30

/-- The accesses that are bus errors (R78): an unmapped offset, an illegal width or alignment (none of the
three kinds of access), or a write to a read-only register. -/
def BusErrorAccess (gMax : Nat) (d : Desc) : Prop :=
  (¬ RegisterAccess d ∧ ¬ BufAccess gMax d ∧ ¬ RasAccess gMax d) ∨ ReadOnlyWrite d

/-- The instruction that takes effect: a write to `CMD` performs the command its data are (R44, R100);
every other instruction performs itself. -/
def performed (i : Instr) (s : State) : Instr :=
  if i = .regWr .cmd then
    match decodeCommand s.wdata with
    | .ok c => c
    | .error _ => i
  else i

/-- The encoding of a command, and what its opcode means with reserved bits set (R100, R102, R106): the
word with opcode `op` and zero reserved bits is the command, and any other word with that opcode is
rejected with `ILLEGAL`. -/
def EncodedAs (op : Nat) (i : Instr) : Prop :=
  ∀ w : Word, w.toNat % 256 = op →
    (w.toNat / 256 = 0 → decodeCommand w = .ok i) ∧
    (w.toNat / 256 ≠ 0 → ∀ s, executeWord w s = .next (recordError .illegal s))

/-- The mode a command is not legal in: it is rejected with `MODE` (R114, R245). -/
def RejectedOutside (m : Mode) (i : Instr) : Prop :=
  ∀ s : State, s.mode ≠ m → exec i s = .next (recordError .mode s)

/-! ### The document's blocks -/

/-- Byte `j` of the header block of payload `p` of `f` bytes (R132); byte `j < 8` is the byte of `f` of
weight `256^(7 − j)`. -/
def headerBlock (p : Nat → Byte) (f bs j : Nat) : Byte :=
  if j < 8 then BitVec.ofNat 8 (f / 256 ^ (7 - j))
  else if j - 8 < min (bs - 8) f then p (j - 8)
  else 0#8

/-- Byte `j` of data block `i ≥ 1` (R133), which starts at payload offset `i × bs − 8`. -/
def dataBlock (p : Nat → Byte) (f bs i j : Nat) : Byte :=
  if j < min bs (f - (i * bs - 8)) then p (i * bs - 8 + j) else 0#8

/-- Byte `j` of block `k` of the document's list (R132, R133). -/
def documentBlock (p : Nat → Byte) (f bs k j : Nat) : Byte :=
  if k = 0 then headerBlock p f bs j else dataBlock p f bs k j

/-- The span of the block holds the payload's bytes from `POS` on (R134). -/
def SpanHolds (p : Nat → Byte) (s : State) : Prop :=
  ∀ k < s.spanlen.toNat, s.buf.read (s.spanoff.toNat + k) = p (s.pos.toNat + k)

/-! ### Failed runs -/

/-- A model of a host program may treat a run that ends so as a failed run (R257). -/
def FailedRun (s : State) : Prop := s.err = true ∨ s.inc = true

end Sys2Proof.Machine
end

