-- ==== Sys2Proof/Certificates/Slice0/Obligations.lean ====
section
/-! DEFINITION. The statements for the provers. A rule R<n> is cited with each; `t = { s with f := t.f, … }`
says the frame: no field but the named ones differs, the registers, flags, buffers and the host port's
fields among them. -/

open Sys2Proof Sys2Proof.Machine

/-! ### Encoding -/

/-- R106: the decoder matches the whole word against the twelve rows, and each command is rejected outside
the mode its row names. -/
def Obligations.CommandWordsAreTheOpcodeMap : Prop :=
  (∀ (w : Word) (i : Instr), decodeCommand w = .ok i ↔
    (w.toNat, i) ∈ ([(0x00, .nop), (0x01, .cfg), (0x02, .encInit), (0x03, .encFrame),
      (0x04, .encEnd), (0x05, .b2r), (0x06, .r2b), (0x07, .decInit), (0x08, .decBlock),
      (0x09, .decEnd), (0x0A, .abort), (0x0B, .clrerr)] : List (Nat × Instr))) ∧
  (∀ p ∈ ([(.cfg, .idle), (.encInit, .idle), (.encFrame, .enc), (.encEnd, .enc), (.decInit, .idle),
      (.decBlock, .dec), (.decEnd, .dec)] : List (Instr × Mode)),
    ∀ m, legalIn p.1 m = true ↔ m = p.2) ∧
  (∀ i ∈ ([.nop, .b2r, .r2b, .abort, .clrerr] : List Instr), ∀ m, legalIn i m = true)

/-- R114: a command in a mode not listed for it records `MODE` and changes nothing else; in a listed mode no
command records `MODE`. -/
def Obligations.WrongModeRecordsModeAndNothingElse : Prop :=
  RejectedOutside .idle .cfg ∧ RejectedOutside .idle .encInit ∧ RejectedOutside .idle .decInit ∧
  RejectedOutside .enc .encFrame ∧ RejectedOutside .enc .encEnd ∧
  RejectedOutside .dec .decBlock ∧ RejectedOutside .dec .decEnd ∧
  ∀ (i : Instr) (s t : State),
    (i ∈ ([.nop, .b2r, .r2b, .abort, .clrerr] : List Instr) ∨
      (i ∈ ([.cfg, .encInit, .decInit] : List Instr) ∧ s.mode = .idle) ∨
      (i ∈ ([.encFrame, .encEnd] : List Instr) ∧ s.mode = .enc) ∨
      (i ∈ ([.decBlock, .decEnd] : List Instr) ∧ s.mode = .dec)) →
    s.err = false → exec i s = .next t → t.err = true → t.code ≠ .mode

/-- R102, R107: a command word with a reserved bit set or an unassigned opcode records `ILLEGAL` and changes
nothing else, in every state. -/
def Obligations.IllegalCommandWordsRecordIllegalOnly : Prop :=
  ∀ s : State, s.wdata.toNat / 256 ≠ 0 ∨ 0x0C ≤ s.wdata.toNat % 256 →
    exec (.regWr .cmd) s = .next (recordError .illegal s)

/-- R110, R111: the six rows, said by the descriptor's fields instead of masks, and nothing else decodes. -/
def Obligations.AccessesAreClassifiedByTheirFields : Prop :=
  ∀ (g : Nat) (d : Desc), Config.LegalGMax g →
    (∀ r, decodeAccess g d = .ok (.regRd r) ↔
      wField d = false ∧ RegisterAccess d ∧ (addrField d).toNat = r.offset) ∧
    (∀ r, decodeAccess g d = .ok (.regWr r) ↔
      wField d = true ∧ RegisterAccess d ∧ (addrField d).toNat = r.offset) ∧
    (∀ off, decodeAccess g d = .ok (.bufRd off) ↔
      wField d = false ∧ BufAccess g d ∧ (addrField d).toNat = 0x100000 + off.toNat) ∧
    (∀ off, decodeAccess g d = .ok (.bufWr off) ↔
      wField d = true ∧ BufAccess g d ∧ (addrField d).toNat = 0x100000 + off.toNat) ∧
    (∀ off, decodeAccess g d = .ok (.rasRd off) ↔
      wField d = false ∧ RasAccess g d ∧ (addrField d).toNat = 0x400000 + off.toNat) ∧
    (∀ off, decodeAccess g d = .ok (.rasWr off) ↔
      wField d = true ∧ RasAccess g d ∧ (addrField d).toNat = 0x400000 + off.toNat) ∧
    (decodeAccess g d = .error .busError ↔
      ¬ RegisterAccess d ∧ ¬ BufAccess g d ∧ ¬ RasAccess g d)

/-- Every well-formed instruction of a legal build, with every operand, decodes from its encoding. -/
def Obligations.DecodeOfEncodeIsTheInstruction : Prop :=
  ∀ (g : Nat) (i : Instr), Config.LegalGMax g → i.wellFormed g = true →
    decodeBits g (encode i).1 (encode i).2 = some i

/-- Each word has one meaning: what decodes to an instruction is that instruction's encoding, and the
instruction is well-formed. -/
def Obligations.EncodeOfDecodeIsTheWord : Prop :=
  ∀ (g nbits w : Nat) (i : Instr), decodeBits g nbits w = some i →
    encode i = (nbits, w) ∧ i.wellFormed g = true

/-- A few words written out from R106 and R110. -/
def Obligations.SampleWordsDecode : Prop :=
  decodeTableWord 64 0x0000000000000000 = some .nop ∧
  decodeTableWord 64 0x0000000000000003 = some .encFrame ∧
  decodeTableWord 64 0x0000000000000006 = some .r2b ∧
  decodeTableWord 64 0x0000000000000009 = some .decEnd ∧
  decodeTableWord 64 0x0000000000000105 = none ∧
  decodeTableWord 64 0x000000000000000C = none ∧
  decodeTableWord 32 0x30000018 = some (.regRd .status) ∧
  decodeTableWord 32 0xB0000028 = some (.regWr .arg) ∧
  decodeTableWord 32 0x30000070 = none ∧
  decodeTableWord 32 0x801001FF = some (.bufWr 0x1FF#20) ∧
  decodeTableWord 32 0x00100200 = none ∧
  decodeTableWord 32 0x00400FFF = some (.rasRd 0xFFF#22)

/-! ### Steps -/

/-- R80, R110: the next step takes the host's oldest access and is `exec` of the instruction its descriptor
decodes to, with the access's data beside it. -/
def Obligations.StepRunsTheDecodedAccess : Prop :=
  ∀ (s : State) (a : Access) (rest : List Input) (i : Instr),
    s.inputs = .access a :: rest → decodeAccess s.gMax a.desc = .ok i →
    step s = exec i { s with inputs := rest, wdata := a.data }

/-- R44, R100: a step whose access writes a command word to `CMD` is `exec` of that command. -/
def Obligations.StepRunsTheCommandWritten : Prop :=
  ∀ (s : State) (w : Word) (rest : List Input) (c : Instr),
    s.inputs = .access ⟨0xB0000030#32, w⟩ :: rest → decodeCommand w = .ok c →
    step s = exec c { s with inputs := rest, wdata := w }

/-- R72, R77, R78: an access of an unmapped offset, an illegal width or alignment, or to a read-only
register for writing records `BUS`, returns 0 if it is a read, and changes no other state. -/
def Obligations.BusErrorsRecordBusAndNothingElse : Prop :=
  ∀ (s : State) (a : Access) (rest : List Input), Config.LegalGMax s.gMax →
    s.inputs = .access a :: rest → BusErrorAccess s.gMax a.desc →
    (wField a.desc = true →
      step s = .next (recordError .bus { s with inputs := rest, wdata := a.data })) ∧
    (wField a.desc = false →
      step s = .next
        { recordError .bus { s with inputs := rest, wdata := a.data } with rdata := 0 })

/-- R271 says the block executes nothing until the host accesses it; that a step without a pending access
leaves the whole state as it is, is the model's choice (log entry 5). -/
def Obligations.StepWithoutInputChangesNothing : Prop :=
  ∀ s : State, s.inputs = [] → step s = .next s

/-- R257: every instruction and every input has a next state, in every state. -/
def Obligations.EveryStepAnswersANextState : Prop :=
  (∀ (i : Instr) (s : State), ∃ t, exec i s = .next t) ∧ ∀ s : State, ∃ t, step s = .next t

/-! ### Host operations -/

/-- R73: what each register reads as, field by field, and that a register read changes only the returned
data. -/
def Obligations.RegisterReadsReturnTheirValue : Prop :=
  ∀ (s : State) (r : Reg), ∃ v : Word, exec (.regRd r) s = .next { s with rdata := v } ∧
    match r with
    | .id => v = s.id
    | .cap => v = s.cap
    | .cfg => v.toNat = s.gdiv8.toNat + 2 ^ 8 * s.thresh.toNat
    | .status => v.toNat = s.err.toNat + 2 * s.done.toNat + 4 * s.hdr.toNat + 8 * s.extra.toNat
        + 16 * s.inc.toNat
        + 2 ^ 8 * (match s.mode with | .idle => 0 | .enc => 1 | .dec => 2)
    | .err => v.toNat = match s.code with
        | .none => 0 | .illegal => 1 | .mode => 2 | .badarg => 3 | .seq => 4
        | .incompleteDec => 5 | .incompleteEnc => 6 | .bus => 7
    | .arg => v = s.arg
    | .cmd => v = 0
    | .fsize => v = s.fsize
    | .nblk => v = s.nblk
    | .bidx => v = s.bidx
    | .pos => v = s.pos
    | .spanoff => v = s.spanoff
    | .spanlen => v = s.spanlen
    | .bsize => v.toNat = 8 * s.gdiv8.toNat ^ 2

/-- R31, R32: `ID` and `CAP` are constants: every step leaves them, they read as the rules say, and a write
is a bus error. -/
def Obligations.IdAndCapAreConstants : Prop :=
  (∀ s t : State, Inv s → step s = .next t → t.id = s.id ∧ t.cap = s.cap) ∧
  (∀ s : State, Inv s →
    exec (.regRd .id) s = .next { s with rdata := 0x0000000042535201#64 } ∧
    ∃ v : Word, exec (.regRd .cap) s = .next { s with rdata := v } ∧ v.toNat = s.gMax ∧
      Config.LegalGMax s.gMax) ∧
  (∀ s : State, exec (.regWr .id) s = .next (recordError .bus s) ∧
    exec (.regWr .cap) s = .next (recordError .bus s))

/-- R51, R222: `BSIZE` reads as `8 × GDIV8²`, 512 at reset, and follows a successful `CFG` at once; a write
is a bus error. -/
def Obligations.BsizeReadsTheBlockSize : Prop :=
  (∀ s : State, ∃ v : Word, exec (.regRd .bsize) s = .next { s with rdata := v } ∧
    v.toNat = 8 * s.gdiv8.toNat ^ 2) ∧
  exec (.regRd .bsize) State.reset = .next { State.reset with rdata := 512 } ∧
  (∀ s : State, exec (.regWr .bsize) s = .next (recordError .bus s)) ∧
  (∀ s : State, s.mode = .idle → cfgOperandBad s.gMax s.arg = false →
    ∃ t u, exec .cfg s = .next t ∧ exec (.regRd .bsize) t = .next u ∧
      u.rdata.toNat = 8 * (s.arg.toNat % 256) ^ 2 ∧ t.grid = 8 * (s.arg.toNat % 256) ∧
      t.blockSize = 8 * (s.arg.toNat % 256) ^ 2)

/-- R74: a write to `ARG` stores the data, a write to `CMD` executes it, and a write to any other register
records `BUS` and changes nothing else. -/
def Obligations.RegisterWritesStoreExecuteOrRecordBus : Prop :=
  ∀ s : State,
    exec (.regWr .arg) s = .next { s with arg := s.wdata } ∧
    (∀ c, decodeCommand s.wdata = .ok c → exec (.regWr .cmd) s = exec c s) ∧
    (∀ e, decodeCommand s.wdata = .error e →
      exec (.regWr .cmd) s = .next (recordError .illegal s)) ∧
    (∀ r : Reg, r ≠ .arg → r ≠ .cmd → exec (.regWr r) s = .next (recordError .bus s))

/-- R75: a one-byte access at `0x100000 + i` for `i < BS_MAX` reads or writes `BUF[i]`, in every mode, and
nothing else; bytes at or beyond the current block size are no exception. -/
def Obligations.BufWindowReadsAndWritesOneByte : Prop :=
  (∀ (g : Nat) (d : Desc), Config.LegalGMax g → BufAccess g d →
    decodeAccess g d = .ok (if wField d = true
      then .bufWr (BitVec.ofNat 20 ((addrField d).toNat - 0x100000))
      else .bufRd (BitVec.ofNat 20 ((addrField d).toNat - 0x100000)))) ∧
  ∀ (s : State) (off : BitVec 20), off.toNat < Config.bsMax s.gMax →
    (∃ v : Word, exec (.bufRd off) s = .next { s with rdata := v } ∧
      v.toNat = (s.buf.read off.toNat).toNat) ∧
    ∃ t, exec (.bufWr off) s = .next t ∧ t = { s with buf := t.buf } ∧
      (t.buf.read off.toNat).toNat = s.wdata.toNat % 256 ∧
      ∀ a, a ≠ off.toNat → t.buf.read a = s.buf.read a

/-- R76: a one-byte access at `0x400000 + i` for `i < RAS_MAX` reads or writes `RAS[i]`, in every mode, and
nothing else; row `r`, column `c` of the current raster is at `0x400000 + r × G + c`. -/
def Obligations.RasWindowReadsAndWritesOneCell : Prop :=
  (∀ (g : Nat) (d : Desc), Config.LegalGMax g → RasAccess g d →
    decodeAccess g d = .ok (if wField d = true
      then .rasWr (BitVec.ofNat 22 ((addrField d).toNat - 0x400000))
      else .rasRd (BitVec.ofNat 22 ((addrField d).toNat - 0x400000)))) ∧
  (∀ (s : State) (r c : Nat) (d : Desc), Inv s → r < s.grid → c < s.grid →
    (szField d).toNat = 0 → (htRsvField d).toNat = 0 →
    (addrField d).toNat = 0x400000 + r * s.grid + c →
    decodeAccess s.gMax d = .ok (if wField d = true
      then .rasWr (BitVec.ofNat 22 (r * s.grid + c))
      else .rasRd (BitVec.ofNat 22 (r * s.grid + c)))) ∧
  ∀ (s : State) (off : BitVec 22), off.toNat < Config.rasMax s.gMax →
    (∃ v : Word, exec (.rasRd off) s = .next { s with rdata := v } ∧
      v.toNat = (s.ras.read off.toNat).toNat) ∧
    ∃ t, exec (.rasWr off) s = .next t ∧ t = { s with ras := t.ras } ∧
      (t.ras.read off.toNat).toNat = s.wdata.toNat % 256 ∧
      ∀ a, a ≠ off.toNat → t.ras.read a = s.ras.read a

/-- R79: a legal read changes no state of the block and repeats itself; register and window writes repeat
themselves, except that repeating a write to `CMD` repeats the command; a read that is a bus error
records the error. -/
def Obligations.ReadsHaveNoSideEffectsAndWritesRepeat : Prop :=
  (∀ (s : State) (i : Instr), i.wellFormed s.gMax = true →
    ((∃ r, i = .regRd r) ∨ (∃ off, i = .bufRd off) ∨ ∃ off, i = .rasRd off) →
    ∃ t, exec i s = .next t ∧ t = { s with rdata := t.rdata } ∧ exec i t = .next t) ∧
  (∀ (s : State) (i : Instr), s.buf.wf → s.ras.wf →
    ((∃ r, r ≠ .cmd ∧ i = .regWr r) ∨ (∃ off, i = .bufWr off) ∨ ∃ off, i = .rasWr off) →
    ∃ t, exec i s = .next t ∧ exec i t = .next t) ∧
  (∀ (s : State) (c : Instr), decodeCommand s.wdata = .ok c →
    exec (.regWr .cmd) s = exec c s) ∧
  (∀ (s : State) (a : Access) (rest : List Input), wField a.desc = false →
    s.inputs = .access a :: rest → decodeAccess s.gMax a.desc = .error .busError →
    ∃ t, step s = .next t ∧ t.err = true ∧
      t = { s with inputs := rest, wdata := a.data, rdata := 0, err := true, code := t.code })

/-! ### Errors -/

/-- R244: the first error since the last `CLRERR` or reset is kept. -/
def Obligations.RecordErrorKeepsTheFirst : Prop :=
  ∀ (c : ErrCode) (s : State),
    (s.err = false → recordError c s = { s with err := true, code := c }) ∧
    (s.err = true → recordError c s = s)

/-- R250: a latched error has no effect on what an instruction does but for the latch itself: with any other
latch the same instruction has the same next state up to the latch. The reads of `STATUS` and `ERR`
return the latch, so they differ in the data returned. -/
def Obligations.LatchedErrorDoesNotChangeExecution : Prop :=
  ∀ (i : Instr) (s t : State) (e : Bool) (c : ErrCode), exec i s = .next t →
    ∃ t', exec i { s with err := e, code := c } = .next t' ∧
      t' = { t with err := t'.err, code := t'.code, rdata := t'.rdata } ∧
      (i ≠ .regRd .status → i ≠ .regRd .err → t'.rdata = t.rdata)

/-- R36, R249: only `CLRERR` or the platform's reset clears a latched error or changes its code; `CLRERR`
clears the latch and restores nothing else; commands go on executing while an error is latched. -/
def Obligations.OnlyClrerrOrResetClearsTheLatch : Prop :=
  (∀ s t : State, step s = .next t → s.err = true →
    (t.err = true ∧ t.code = s.code) ∨
    (∃ rest, s.inputs = .access ⟨0xB0000030#32, 0x0B#64⟩ :: rest) ∨
    (∃ b r rest, s.inputs = .reset b r :: rest)) ∧
  (∀ s : State, exec .clrerr s = .next { s with err := false, code := .none }) ∧
  ∀ (c : Instr) (s t : State), encodeWidth c = 64 → s.err = true →
    exec c { s with err := false, code := .none } = .next t →
    ∃ t', exec c s = .next t' ∧ t' = { t with err := t'.err, code := t'.code }

/-- R241: each code is recorded only for its cause. -/
def Obligations.ErrorCodesComeFromTheirCauses : Prop :=
  ∀ (i : Instr) (s t : State), exec i s = .next t → s.err = false → t.err = true →
    match t.code with
    | .none => False
    | .illegal => i = .regWr .cmd ∧ ∃ e, decodeCommand s.wdata = .error e
    | .mode => legalIn (performed i s) s.mode = false
    | .badarg => performed i s = .cfg ∧
        (s.arg.toNat / 65536 ≠ 0 ∨ s.arg.toNat % 256 = 0 ∨ s.gMax / 8 < s.arg.toNat % 256 ∨
          s.arg.toNat / 256 % 256 = 255)
    | .seq => performed i s = .encFrame ∧ s.nblk.toNat ≤ s.bidx.toNat
    | .incompleteDec => performed i s = .decEnd ∧ (s.hdr = false ∨ s.pos.toNat < s.fsize.toNat)
    | .incompleteEnc => performed i s = .encEnd ∧ s.bidx.toNat < s.nblk.toNat
    | .bus => (∃ r, r ≠ .arg ∧ r ≠ .cmd ∧ i = .regWr r) ∨ i.wellFormed s.gMax = false

/-- R246: a command word is checked for `ILLEGAL`, then for `MODE`, then by its own check; a `CMD` write of a
wrong width is not executed, so only `BUS` is recorded. -/
def Obligations.OnlyTheFirstFailingCheckIsRecorded : Prop :=
  (∀ s : State, s.wdata.toNat / 256 ≠ 0 ∨ 0x0C ≤ s.wdata.toNat % 256 →
    exec (.regWr .cmd) s = .next (recordError .illegal s)) ∧
  (∀ s : State, s.mode ≠ .idle → cfgOperandBad s.gMax s.arg = true →
    exec .cfg s = .next (recordError .mode s)) ∧
  (∀ s : State, s.mode ≠ .enc → s.nblk.toNat ≤ s.bidx.toNat →
    exec .encFrame s = .next (recordError .mode s)) ∧
  (∀ (s : State) (a : Access) (rest : List Input), Config.LegalGMax s.gMax →
    s.inputs = .access a :: rest → wField a.desc = true → (addrField a.desc).toNat = 0x30 →
    (szField a.desc).toNat ≠ 3 →
    step s = .next (recordError .bus { s with inputs := rest, wdata := a.data }))

/-- R247: `ENC_END` and `DEC_END` complete when the session is incomplete, set `STATUS.INC` whether or not
an error is latched, and keep an earlier code; the next `ENC_INIT` or `DEC_INIT` clears `STATUS.INC`. -/
def Obligations.IncompleteSessionsCompleteWithInc : Prop :=
  (∀ s : State, s.mode = .enc → s.bidx.toNat < s.nblk.toNat →
    ∃ t, exec .encEnd s = .next t ∧ t.mode = .idle ∧ t.inc = true ∧ t.err = true ∧
      t.code = if s.err = true then s.code else .incompleteEnc) ∧
  (∀ s : State, s.mode = .dec → (s.hdr = false ∨ s.pos.toNat < s.fsize.toNat) →
    ∃ t, exec .decEnd s = .next t ∧ t.mode = .idle ∧ t.inc = true ∧ t.err = true ∧
      t.code = if s.err = true then s.code else .incompleteDec) ∧
  (∀ s : State, s.mode = .idle →
    (∃ t, exec .encInit s = .next t ∧ t.inc = false) ∧
    ∃ t, exec .decInit s = .next t ∧ t.inc = false)

/-! ### Control commands -/

/-- R220: `NOP` changes no state, in every mode. -/
def Obligations.NopChangesNothing : Prop :=
  EncodedAs 0x00 .nop ∧ ∀ s : State, exec .nop s = .next s

/-- R221: `CFG` sets `GDIV8` and `THRESH` from `ARG` and nothing else; an operand out of range is rejected
with `BADARG`, with no partial update. -/
def Obligations.CfgSetsGridAndThreshold : Prop :=
  EncodedAs 0x01 .cfg ∧ RejectedOutside .idle .cfg ∧
  ∀ s : State, s.mode = .idle →
    ((s.arg.toNat / 65536 ≠ 0 ∨ s.arg.toNat % 256 = 0 ∨ s.gMax / 8 < s.arg.toNat % 256 ∨
        s.arg.toNat / 256 % 256 = 255) →
      exec .cfg s = .next (recordError .badarg s)) ∧
    (s.arg.toNat / 65536 = 0 → 1 ≤ s.arg.toNat % 256 → s.arg.toNat % 256 ≤ s.gMax / 8 →
      s.arg.toNat / 256 % 256 ≠ 255 →
      exec .cfg s = .next { s with
        gdiv8 := BitVec.ofNat 8 (s.arg.toNat % 256)
        thresh := BitVec.ofNat 8 (s.arg.toNat / 256 % 256) })

/-- R223: `ABORT` closes the session and changes nothing else, in every mode; in `IDLE` it has no effect. -/
def Obligations.AbortOnlyClosesTheSession : Prop :=
  EncodedAs 0x0A .abort ∧ (∀ s : State, exec .abort s = .next { s with mode := .idle }) ∧
  ∀ s : State, s.mode = .idle → exec .abort s = .next s

/-- R224: `CLRERR` clears the latch and changes nothing else, in every mode; with no error latched it has no
effect; a `CLRERR` word with a reserved bit set records `ILLEGAL` only if no error was latched. -/
def Obligations.ClrerrOnlyClearsTheLatch : Prop :=
  EncodedAs 0x0B .clrerr ∧
  (∀ s : State, exec .clrerr s = .next { s with err := false, code := .none }) ∧
  (∀ s : State, Inv s → s.err = false → exec .clrerr s = .next s) ∧
  ∀ s : State, s.wdata.toNat % 256 = 0x0B → s.wdata.toNat / 256 ≠ 0 → s.err = true →
    exec (.regWr .cmd) s = .next s

/-! ### Framer, encode direction -/

/-- R135: `ENC_INIT` opens an encode session of `ARG` bytes. -/
def Obligations.EncInitOpensAnEncodeSession : Prop :=
  EncodedAs 0x02 .encInit ∧ RejectedOutside .idle .encInit ∧
  ∀ s : State, s.mode = .idle → 1 ≤ s.gdiv8.toNat →
    ∃ t, exec .encInit s = .next t ∧
      t = { s with
        fsize := s.arg, nblk := t.nblk, bidx := 0, pos := 0, spanoff := 8, spanlen := t.spanlen
        done := false, hdr := false, extra := false, inc := false, mode := .enc } ∧
      t.nblk.toNat = (s.arg.toNat + 8 + s.blockSize - 1) / s.blockSize ∧ 1 ≤ t.nblk.toNat ∧
      t.spanlen.toNat = min (s.blockSize - 8) s.arg.toNat ∧
      (s.arg = 0 → t.nblk = 1 ∧ t.spanlen = 0) ∧
      (s.blockSize = 8 → t.spanlen = 0) ∧
      (s.arg = BitVec.allOnes 64 → s.blockSize = 512 → t.nblk.toNat = 2 ^ 55 + 1) ∧
      (s.arg = BitVec.allOnes 64 → s.blockSize = 8 → t.nblk.toNat = 2 ^ 61 + 1)

/-- R136, the pseudocode: `ENC_FRAME` writes the header bytes of the first block and the zero padding, and
advances the session; with every block framed it is rejected with `SEQ`. Header byte `j` is the byte of
`FSIZE` of weight `256^(7 − j)`. -/
def Obligations.EncFrameWritesHeaderAndPadding : Prop :=
  EncodedAs 0x03 .encFrame ∧ RejectedOutside .enc .encFrame ∧
  (∀ s : State, s.mode = .enc → s.nblk.toNat ≤ s.bidx.toNat →
    exec .encFrame s = .next (recordError .seq s)) ∧
  ∀ s : State, Inv s → s.mode = .enc → s.bidx.toNat < s.nblk.toNat →
    ∃ t, exec .encFrame s = .next t ∧
      t = { s with
        buf := t.buf, pos := t.pos, bidx := t.bidx, done := t.done, spanoff := 0
        spanlen := t.spanlen } ∧
      (∀ j, t.buf.read j =
        if s.bidx = 0 ∧ j < 8 then BitVec.ofNat 8 (s.fsize.toNat / 256 ^ (7 - j))
        else if s.spanoff.toNat + s.spanlen.toNat ≤ j ∧ j < s.blockSize then 0
        else s.buf.read j) ∧
      t.pos.toNat = s.pos.toNat + s.spanlen.toNat ∧
      t.bidx.toNat = s.bidx.toNat + 1 ∧
      (t.bidx = s.nblk → t.done = true ∧ t.spanlen = 0) ∧
      (t.bidx ≠ s.nblk → t.done = s.done ∧
        t.spanlen.toNat = min s.blockSize (s.fsize.toNat - t.pos.toNat))

/-- R138: `ENC_END` closes the session; with blocks unframed it also sets `STATUS.INC` and records
`INCOMPLETE_ENC`, which straight after `ENC_INIT` is always so. -/
def Obligations.EncEndClosesTheEncodeSession : Prop :=
  EncodedAs 0x04 .encEnd ∧ RejectedOutside .enc .encEnd ∧
  (∀ s : State, s.mode = .enc → s.bidx.toNat < s.nblk.toNat →
    exec .encEnd s = .next { recordError .incompleteEnc s with inc := true, mode := .idle }) ∧
  (∀ s : State, s.mode = .enc → s.nblk.toNat ≤ s.bidx.toNat →
    exec .encEnd s = .next { s with mode := .idle }) ∧
  ∀ s : State, s.mode = .idle → 1 ≤ s.gdiv8.toNat →
    ∃ t u, exec .encInit s = .next t ∧ exec .encEnd t = .next u ∧ u.inc = true ∧ u.mode = .idle

/-- R131: the document's block count and `ceil((F + 8) / bs)` are the same number, and `ceil(F / 512)` is
another. -/
def Obligations.DocumentBlockCountIsTheHardwares : Prop :=
  (∀ f bs : Nat, 8 ≤ bs →
    (f ≤ bs - 8 → blockCount f bs = 1) ∧
    (bs - 8 < f → blockCount f bs = (f - (bs - 8) + bs - 1) / bs + 1)) ∧
  (∀ f : Nat, blockCount f 512 = if f ≤ 504 then 1 else 1 + (f - 504 + 511) / 512) ∧
  blockCount 505 512 ≠ (505 + 511) / 512

/-- R137: in an encode session past the first block, blocks remain exactly while payload remains, so
`ENC_FRAME` is rejected with `SEQ` exactly when the whole payload is framed. -/
def Obligations.EncFrameEndsWithThePayload : Prop :=
  ∀ s : State, Inv s → s.mode = .enc → 1 ≤ s.bidx.toNat →
    s.pos.toNat = min s.fsize.toNat (s.bidx.toNat * s.blockSize - 8) ∧
    (s.bidx.toNat < s.nblk.toNat ↔ s.pos.toNat < s.fsize.toNat) ∧
    (s.pos = s.fsize → exec .encFrame s = .next (recordError .seq s))

/-- R132, R133: when the span holds the payload's next bytes, `ENC_FRAME` leaves exactly block `BIDX` of the
document's list in `BUF[0 .. bs)`, whatever the other bytes of `BUF` were. -/
def Obligations.EncFrameProducesTheDocumentsBlock : Prop :=
  ∀ (s : State) (p : Nat → Byte), Inv s → s.mode = .enc → s.bidx.toNat < s.nblk.toNat →
    SpanHolds p s →
    ∃ t, exec .encFrame s = .next t ∧
      ∀ j < s.blockSize,
        t.buf.read j = documentBlock p s.fsize.toNat s.blockSize s.bidx.toNat j

/-! ### Bit-serializer and raster-bit-mapper -/

/-- R160, R161: `ser8` gives the most significant bit first, `deser8` is the weighted sum, and each undoes
the other. -/
def Obligations.SerializerIsMostSignificantFirst : Prop :=
  (∀ b : Byte, (ser8 b).length = 8 ∧
    ∀ k < 8, (ser8 b)[k]? = some (b.getLsbD (7 - k))) ∧
  (∀ s0 s1 s2 s3 s4 s5 s6 s7 : Bool,
    (deser8 [s0, s1, s2, s3, s4, s5, s6, s7]).toNat = 2 ^ 7 * s0.toNat + 2 ^ 6 * s1.toNat
      + 2 ^ 5 * s2.toNat + 2 ^ 4 * s3.toNat + 2 ^ 3 * s4.toNat + 2 ^ 2 * s5.toNat
      + 2 * s6.toNat + s7.toNat) ∧
  (∀ b : Byte, deser8 (ser8 b) = b) ∧
  (∀ l : List Bool, l.length = 8 → ser8 (deser8 l) = l)

/-- R162: a block's bit sequence has `bs × 8 = G²` positions, and bit `i` of a block is item `i` of the
concatenation of its serialized bytes. -/
def Obligations.BitSequenceIsTheConcatenation : Prop :=
  (∀ s : State, s.blockSize * 8 = s.grid * s.grid) ∧
  ∀ (b : Nat → Byte) (n : Nat),
    ((List.range n).flatMap fun j => ser8 (b j)).length = n * 8 ∧
    ∀ i < n * 8,
      ((List.range n).flatMap fun j => ser8 (b j))[i]? = some (bitAt b i) ∧
      bitAt b i = (b (i / 8)).getLsbD (7 - i % 8)

/-- R165: `B2R` writes 0 or 255 for each bit of the block, the most significant first, and nothing but
`RAS[0 .. G²)`, in every mode. -/
def Obligations.B2rMapsTheBlockToTheRaster : Prop :=
  EncodedAs 0x05 .b2r ∧
  ∀ s : State, ∃ t, exec .b2r s = .next t ∧ t = { s with ras := t.ras } ∧
    (∀ i < s.grid * s.grid,
      t.ras.read i = if (s.buf.read (i / 8)).getLsbD (7 - i % 8) = true then 255 else 0) ∧
    ∀ i, s.grid * s.grid ≤ i → t.ras.read i = s.ras.read i

/-- R171: `R2B` packs the thresholded pixels, the first into the most significant bit, and writes nothing
but `BUF[0 .. bs)`, in every mode. -/
def Obligations.R2bPacksTheThresholdedRaster : Prop :=
  EncodedAs 0x06 .r2b ∧
  ∀ s : State, ∃ t, exec .r2b s = .next t ∧ t = { s with buf := t.buf } ∧
    (∀ j < s.blockSize, ∀ k < 8, (t.buf.read j).getLsbD (7 - k) =
      decide (s.thresh.toNat < (s.ras.read (8 * j + k)).toNat)) ∧
    ∀ j, s.blockSize ≤ j → t.buf.read j = s.buf.read j

/-- R167: row `r` of the raster holds the bits of block bytes `r × G/8` to `(r + 1) × G/8 − 1`. -/
def Obligations.RasterRowsHoldWholeBytes : Prop :=
  ∀ (s : State) (r m k : Nat), r < s.grid → m < s.grid / 8 → k < 8 →
    ∃ t, exec .b2r s = .next t ∧
      t.ras.read (r * s.grid + 8 * m + k) =
        px ((s.buf.read (r * (s.grid / 8) + m)).getLsbD (7 - k))

/-- R168: after `B2R` every cell of the raster is 0 or 255. -/
def Obligations.B2rOutputIsBinarized : Prop :=
  ∀ (s : State) (i : Nat), i < s.grid * s.grid →
    ∃ t, exec .b2r s = .next t ∧ (t.ras.read i = 0 ∨ t.ras.read i = 255)

/-- R172: `B2R` and then `R2B` leave `BUF` as it was, with every block contents and every legal threshold. -/
def Obligations.R2bUndoesB2r : Prop :=
  ∀ s : State, s.thresh.toNat ≤ 254 →
    ∃ t u, exec .b2r s = .next t ∧ exec .r2b t = .next u ∧
      (∀ j, u.buf.read j = s.buf.read j) ∧ (s.buf.wf → u.buf = s.buf)

/-- R173: `B2R` and `R2B` depend on nothing but the configuration and the bytes they read. -/
def Obligations.MapperDependsOnlyOnWhatItReads : Prop :=
  (∀ s s' t t' : State, s.gdiv8 = s'.gdiv8 →
    (∀ j < s.blockSize, s.buf.read j = s'.buf.read j) →
    exec .b2r s = .next t → exec .b2r s' = .next t' →
    ∀ i < s.grid * s.grid, t.ras.read i = t'.ras.read i) ∧
  (∀ s s' t t' : State, s.gdiv8 = s'.gdiv8 → s.thresh = s'.thresh →
    (∀ i < s.grid * s.grid, s.ras.read i = s'.ras.read i) →
    exec .r2b s = .next t → exec .r2b s' = .next t' →
    ∀ j < s.blockSize, t.buf.read j = t'.buf.read j)

/-! ### Framer, decode direction -/

/-- R192: `DEC_INIT` opens a decode session with every session register 0. -/
def Obligations.DecInitOpensADecodeSession : Prop :=
  EncodedAs 0x07 .decInit ∧ RejectedOutside .idle .decInit ∧
  (∀ s : State, s.mode = .idle → exec .decInit s = .next { s with
    fsize := 0, nblk := 0, bidx := 0, pos := 0, spanoff := 0, spanlen := 0
    done := false, hdr := false, extra := false, inc := false, mode := .dec }) ∧
  ∃ t u, exec .decInit State.reset = .next t ∧ exec (.regRd .status) t = .next u ∧
    u.rdata = 0x200

/-- R193: `DEC_BLOCK` parses the header of the first block, gives the span of a data block, and counts a block
beyond the payload as extra; it changes no buffer and records no error. -/
def Obligations.DecBlockAcceptsTheBlock : Prop :=
  EncodedAs 0x08 .decBlock ∧ RejectedOutside .dec .decBlock ∧
  ∀ s : State, Inv s → s.mode = .dec →
    ∃ t, exec .decBlock s = .next t ∧
      t = { s with
        fsize := t.fsize, nblk := t.nblk, bidx := t.bidx, pos := t.pos, spanoff := t.spanoff
        spanlen := t.spanlen, done := t.done, hdr := t.hdr, extra := t.extra } ∧
      (s.bidx = 0 →
        t.fsize.toNat = (s.buf.read 0).toNat * 256 ^ 7 + (s.buf.read 1).toNat * 256 ^ 6
          + (s.buf.read 2).toNat * 256 ^ 5 + (s.buf.read 3).toNat * 256 ^ 4
          + (s.buf.read 4).toNat * 256 ^ 3 + (s.buf.read 5).toNat * 256 ^ 2
          + (s.buf.read 6).toNat * 256 + (s.buf.read 7).toNat ∧
        t.nblk.toNat = (t.fsize.toNat + 8 + s.blockSize - 1) / s.blockSize ∧
        t.hdr = true ∧ t.extra = s.extra ∧ t.spanoff = 8 ∧
        t.spanlen.toNat = min (s.blockSize - 8) t.fsize.toNat) ∧
      (s.bidx ≠ 0 → s.pos.toNat < s.fsize.toNat →
        t.fsize = s.fsize ∧ t.nblk = s.nblk ∧ t.hdr = s.hdr ∧ t.extra = s.extra ∧
        t.spanoff = 0 ∧ t.spanlen.toNat = min s.blockSize (s.fsize.toNat - s.pos.toNat)) ∧
      (s.bidx ≠ 0 → s.fsize.toNat ≤ s.pos.toNat →
        t.fsize = s.fsize ∧ t.nblk = s.nblk ∧ t.hdr = s.hdr ∧ t.extra = true ∧
        t.spanoff = 0 ∧ t.spanlen = 0) ∧
      t.pos.toNat = s.pos.toNat + t.spanlen.toNat ∧
      t.bidx.toNat = min (s.bidx.toNat + 1) (2 ^ 64 - 1) ∧
      (t.done = true ↔ t.pos = t.fsize)

/-- R196: `DEC_END` closes the session; a stream with no header or short of its payload also sets
`STATUS.INC` and records `INCOMPLETE_DEC`. -/
def Obligations.DecEndClosesTheDecodeSession : Prop :=
  EncodedAs 0x09 .decEnd ∧ RejectedOutside .dec .decEnd ∧
  (∀ s : State, s.mode = .dec → (s.hdr = false ∨ s.pos.toNat < s.fsize.toNat) →
    exec .decEnd s = .next { recordError .incompleteDec s with inc := true, mode := .idle }) ∧
  ∀ s : State, s.mode = .dec → s.hdr = true → s.fsize.toNat ≤ s.pos.toNat →
    exec .decEnd s = .next { s with mode := .idle }

/-- R194: the span of the `k`-th block covers bytes `[max(8, k × bs), min(8 + F, (k + 1) × bs))` of the
concatenated blocks, shifted by `k × bs`; beyond the payload it is empty. -/
def Obligations.DecodedSpansCoverThePayload : Prop :=
  ∀ s : State, Inv s → s.mode = .dec → s.bidx.toNat < 2 ^ 64 - 1 →
    ∃ t, exec .decBlock s = .next t ∧
      t.spanoff.toNat
        = max 8 (s.bidx.toNat * s.blockSize) - s.bidx.toNat * s.blockSize ∧
      t.spanlen.toNat
        = min (8 + t.fsize.toNat) ((s.bidx.toNat + 1) * s.blockSize)
          - max 8 (s.bidx.toNat * s.blockSize) ∧
      ∀ j, t.buf.read j = s.buf.read j

/-- R197: after the header, payload is missing exactly when fewer than `ceil((FSIZE + 8) / bs)` blocks were
consumed, and `DEC_END` reports `INCOMPLETE_DEC` exactly then, or when no block was. -/
def Obligations.DecEndChecksTheBlockCount : Prop :=
  ∀ s : State, Inv s → SessionFlags s → s.mode = .dec →
    (s.hdr = true → (s.pos.toNat < s.fsize.toNat ↔ s.bidx.toNat < s.nblk.toNat) ∧
      s.nblk.toNat = (s.fsize.toNat + 8 + s.blockSize - 1) / s.blockSize) ∧
    ∃ t, exec .decEnd s = .next t ∧
      (t.inc = true ↔ s.hdr = false ∨ s.bidx.toNat < s.nblk.toNat) ∧
      (t.inc = true → t.err = true ∧ (s.err = false → t.code = .incompleteDec)) ∧
      (t.inc = false → t.err = s.err ∧ t.code = s.code)

/-- R199: once the header is parsed no block is parsed as a header again, not even when `BIDX` has
saturated. -/
def Obligations.DecBlockParsesOneHeader : Prop :=
  ∀ s t : State, Inv s → s.mode = .dec → s.hdr = true → exec .decBlock s = .next t →
    t.fsize = s.fsize ∧ t.nblk = s.nblk ∧ t.hdr = true ∧ t.bidx ≠ 0 ∧
    (s.bidx = BitVec.allOnes 64 → t.bidx = BitVec.allOnes 64)

/-- R200, for one block: the block an encode session frames, mapped to a raster, carried unchanged, packed by
a decoder with the same grid and any legal threshold, and accepted as the block of the same index, gives
back the payload bytes that were put in. -/
def Obligations.OneBlockRoundTrip : Prop :=
  ∀ (s d : State) (p : Nat → Byte), Inv s → s.mode = .enc → s.bidx.toNat < s.nblk.toNat →
    SpanHolds p s → Inv d → d.mode = .dec → d.gdiv8 = s.gdiv8 → d.bidx = s.bidx →
    (d.bidx ≠ 0 → d.fsize = s.fsize) →
    ∃ s1 s2, exec .encFrame s = .next s1 ∧ exec .b2r s1 = .next s2 ∧
      ((∀ i < s.grid * s.grid, d.ras.read i = s2.ras.read i) →
        ∃ d1 d2, exec .r2b d = .next d1 ∧ exec .decBlock d1 = .next d2 ∧
          d2.fsize = s.fsize ∧ d2.spanoff = s.spanoff ∧ d2.spanlen = s.spanlen ∧
          d2.pos = s1.pos ∧ d2.extra = d.extra ∧
          (d2.done = true ↔ d2.pos = s.fsize) ∧
          ∀ k < d2.spanlen.toNat,
            d2.buf.read (d2.spanoff.toNat + k) = p (s.pos.toNat + k))

/-! ### The whole machine -/

/-- R34: while a session is open, no step but the platform's reset changes the configuration; outside one
only a `CFG` command does. -/
def Obligations.ConfigurationIsConstantInASession : Prop :=
  ∀ s t : State, step s = .next t → (t.gdiv8 ≠ s.gdiv8 ∨ t.thresh ≠ s.thresh) →
    (∃ b r rest, s.inputs = .reset b r :: rest) ∨
    (s.mode = .idle ∧ ∃ rest, s.inputs = .access ⟨0xB0000030#32, 0x01#64⟩ :: rest)

/-- R35: the instruction that takes effect is one the table names whenever a bit of `STATUS` is set or
cleared or the mode changes. -/
def Obligations.StatusChangesOnlyAsListed : Prop :=
  ∀ (i : Instr) (s t : State), Inv s → SessionFlags s → exec i s = .next t →
    (s.err = true → t.err = false → performed i s = .clrerr) ∧
    (s.done = false → t.done = true → performed i s = .encFrame ∨ performed i s = .decBlock) ∧
    (s.done = true → t.done = false → performed i s = .encInit ∨ performed i s = .decInit) ∧
    (s.hdr = false → t.hdr = true → performed i s = .decBlock) ∧
    (s.hdr = true → t.hdr = false → performed i s = .encInit ∨ performed i s = .decInit) ∧
    (s.extra = false → t.extra = true → performed i s = .decBlock) ∧
    (s.extra = true → t.extra = false → performed i s = .encInit ∨ performed i s = .decInit) ∧
    (s.inc = false → t.inc = true → performed i s = .encEnd ∨ performed i s = .decEnd) ∧
    (s.inc = true → t.inc = false → performed i s = .encInit ∨ performed i s = .decInit) ∧
    (t.mode ≠ s.mode →
      (performed i s = .encInit ∧ s.mode = .idle ∧ t.mode = .enc) ∨
      (performed i s = .decInit ∧ s.mode = .idle ∧ t.mode = .dec) ∨
      (performed i s = .encEnd ∧ s.mode = .enc ∧ t.mode = .idle) ∨
      (performed i s = .decEnd ∧ s.mode = .dec ∧ t.mode = .idle) ∨
      (performed i s = .abort ∧ t.mode = .idle))

/-- Which instructions write what (R33, R42, R43, R45 to R50, R52, R53): no command writes `ARG`; only the
framer's commands write the session registers; only `ENC_FRAME`, `R2B` and the `BUF` window write `BUF`;
only `B2R` and the `RAS` window write `RAS`; `ID` and `CAP` are never written. The clauses on `inputs` and
`wdata` (log entry 2) and on `rdata` (log entry 3) are the model's choice: these fields are the host
port's, and the spec says nothing of them between accesses. -/
def Obligations.OnlyTheirOwnInstructionsWriteEachRegister : Prop :=
  ∀ (i : Instr) (s t : State), exec i s = .next t →
    t.id = s.id ∧ t.cap = s.cap ∧ t.inputs = s.inputs ∧ t.wdata = s.wdata ∧
    (t.arg ≠ s.arg → i = .regWr .arg) ∧
    (t.gdiv8 ≠ s.gdiv8 ∨ t.thresh ≠ s.thresh → performed i s = .cfg) ∧
    (t.fsize ≠ s.fsize ∨ t.nblk ≠ s.nblk →
      performed i s = .encInit ∨ performed i s = .decInit ∨ performed i s = .decBlock) ∧
    (t.bidx ≠ s.bidx ∨ t.pos ≠ s.pos ∨ t.spanoff ≠ s.spanoff ∨ t.spanlen ≠ s.spanlen →
      performed i s = .encInit ∨ performed i s = .encFrame ∨ performed i s = .decInit ∨
      performed i s = .decBlock) ∧
    (t.buf ≠ s.buf →
      performed i s = .encFrame ∨ performed i s = .r2b ∨ ∃ off, i = .bufWr off) ∧
    (t.ras ≠ s.ras → performed i s = .b2r ∨ ∃ off, i = .rasWr off) ∧
    (t.rdata ≠ s.rdata →
      (∃ r, i = .regRd r) ∨ (∃ off, i = .bufRd off) ∨ ∃ off, i = .rasRd off)

/-- R52, R53: no command writes beyond `BUF[0 .. bs)` and `RAS[0 .. G²)`. -/
def Obligations.CommandsStayInsideTheCurrentBlock : Prop :=
  ∀ (i : Instr) (s t : State), 1 ≤ s.gdiv8.toNat → encodeWidth i = 64 → exec i s = .next t →
    (∀ a, s.blockSize ≤ a → t.buf.read a = s.buf.read a) ∧
    ∀ a, s.grid * s.grid ≤ a → t.ras.read a = s.ras.read a

/-- R59: every step keeps the invariants, a step that takes the platform's reset too. -/
def Obligations.EveryStepKeepsTheInvariants : Prop :=
  ∀ s t : State, Inv s → step s = .next t → Inv t

/-- Every step keeps what R37 to R40 say of the flags in an open session. -/
def Obligations.EveryStepKeepsTheSessionFlags : Prop :=
  ∀ s t : State, Inv s → SessionFlags s → step s = .next t → SessionFlags t

/-- R59: the invariants hold after reset, in every legal build and with every draw of buffer contents. -/
def Obligations.ResetMeetsTheInvariants : Prop :=
  (Inv State.reset ∧ SessionFlags State.reset) ∧
  ∀ (s : State) (b r : List Byte), Config.LegalGMax s.gMax → s.cap = BitVec.ofNat 64 s.gMax →
    Inv (platformReset b r s) ∧ SessionFlags (platformReset b r s)

/-- R57: in the default build every register reads as its reset value after reset, and the platform's reset
puts every register at its reset value from every state, so it ends an open session without setting
`STATUS.INC`; each byte of the buffers holds that byte of the draw, and is stable until written: after
that a step changes a byte only if it is a write of that byte through its window, a command that writes
its buffer, or the next reset. That the platform's reset is an input which a step takes is the model's
choice (log entry 11). -/
def Obligations.ResetPutsEveryRegisterAtItsValue : Prop :=
  (∀ r : Reg, readReg State.reset r = match r with
    | .id => 0x42535201 | .cap => 64 | .cfg => 0x7F08 | .bsize => 512 | _ => 0) ∧
  (∀ (s : State) (b r : List Byte) (rest : List Input), s.inputs = .reset b r :: rest →
    ∃ t, step s = .next t ∧
      t.id = 0x0000000042535201#64 ∧ t.cap = s.cap ∧ t.gdiv8 = 8 ∧ t.thresh = 127 ∧
      t.err = false ∧ t.done = false ∧ t.hdr = false ∧ t.extra = false ∧ t.inc = false ∧
      t.mode = .idle ∧ t.code = .none ∧ t.arg = 0 ∧ t.fsize = 0 ∧ t.nblk = 0 ∧ t.bidx = 0 ∧
      t.pos = 0 ∧ t.spanoff = 0 ∧ t.spanlen = 0 ∧
      (∀ i < Config.bsMax s.gMax, ∀ x, b[i]? = some x → t.buf.read i = x) ∧
      (∀ i < Config.rasMax s.gMax, ∀ x, r[i]? = some x → t.ras.read i = x)) ∧
  ∀ (s t : State) (k : Nat), step s = .next t →
    (t.buf.read k ≠ s.buf.read k →
      (∃ b r rest, s.inputs = .reset b r :: rest) ∨
      ∃ a rest i, s.inputs = .access a :: rest ∧ decodeAccess s.gMax a.desc = .ok i ∧
        (performed i { s with wdata := a.data } = .encFrame ∨
          performed i { s with wdata := a.data } = .r2b ∨
          ∃ off, i = .bufWr off ∧ off.toNat = k)) ∧
    (t.ras.read k ≠ s.ras.read k →
      (∃ b r rest, s.inputs = .reset b r :: rest) ∨
      ∃ a rest i, s.inputs = .access a :: rest ∧ decodeAccess s.gMax a.desc = .ok i ∧
        (performed i { s with wdata := a.data } = .b2r ∨ ∃ off, i = .rasWr off ∧ off.toNat = k))

/-- R56: the host can read every piece of the block's state: two states that every register read and every
window read agree on are the same but for the host port's own fields. -/
def Obligations.HostReadsDetermineTheBlock : Prop :=
  ∀ s s' : State, Inv s → Inv s' →
    (∀ r, readReg s r = readReg s' r) →
    (∀ i < Config.bsMax s.gMax, s.buf.read i = s'.buf.read i) →
    (∀ i < Config.rasMax s.gMax, s.ras.read i = s'.ras.read i) →
    s' = { s with inputs := s'.inputs, wdata := s'.wdata, rdata := s'.rdata }

/-- R56: opening a session forgets every earlier session: the state after `ENC_INIT` or `DEC_INIT` does not
depend on what the session registers and the flags `DONE`, `HDR`, `EXTRA` and `INC` were. -/
def Obligations.OpeningASessionForgetsEarlierOnes : Prop :=
  ∀ (s : State) (f n b p o l : Word) (dn hd ex ic : Bool), s.mode = .idle →
    exec .encInit { s with
      fsize := f, nblk := n, bidx := b, pos := p, spanoff := o, spanlen := l
      done := dn, hdr := hd, extra := ex, inc := ic } = exec .encInit s ∧
    exec .decInit { s with
      fsize := f, nblk := n, bidx := b, pos := p, spanoff := o, spanlen := l
      done := dn, hdr := hd, extra := ex, inc := ic } = exec .decInit s
end

