-- ==== Sys2Proof/Laws/Memory.lean ====
section
/-! SUPPORT. Laws of the buffers: what a read gives after a write, that every operation keeps the canonical
form and the bound, and that equal contents are equal lists. -/

namespace Sys2Proof.Machine

namespace Memory

@[simp] theorem read_nil (a : Nat) : Memory.read [] a = 0#8 := rfl

theorem read_cons (k : Nat) (b : Byte) (m : Memory) (a : Nat) :
    Memory.read ((k, b) :: m) a = if k = a then b else Memory.read m a := rfl

theorem read_eq_zero_of_no_key {m : Memory} {a : Nat} (h : ∀ c ∈ m, c.1 ≠ a) :
    Memory.read m a = 0#8 := by
  induction m with
  | nil => rfl
  | cons c m ih =>
    rw [read_cons, if_neg (h c (by simp))]
    exact ih fun d hd => h d (by simp [hd])

theorem read_append_of_no_key {x : Memory} (y : Memory) {a : Nat} (h : ∀ c ∈ x, c.1 ≠ a) :
    Memory.read (x ++ y) a = Memory.read y a := by
  induction x with
  | nil => rfl
  | cons c x ih =>
    rw [List.cons_append, read_cons, if_neg (h c (by simp))]
    exact ih fun d hd => h d (by simp [hd])

theorem read_append_of_key {x : Memory} (y : Memory) {a : Nat} (h : ∃ c ∈ x, c.1 = a) :
    Memory.read (x ++ y) a = Memory.read x a := by
  induction x with
  | nil => simp at h
  | cons c x ih =>
    rw [List.cons_append, read_cons, read_cons]
    by_cases hc : c.1 = a
    · rw [if_pos hc, if_pos hc]
    · rw [if_neg hc, if_neg hc]
      apply ih
      obtain ⟨d, hd, hda⟩ := h
      rcases List.mem_cons.mp hd with rfl | hd
      · exact absurd hda hc
      · exact ⟨d, hd, hda⟩

theorem read_filter_key (m : Memory) (p : Nat → Bool) (a : Nat) :
    Memory.read (m.filter fun c => p c.1) a = if p a then Memory.read m a else 0#8 := by
  induction m with
  | nil => simp
  | cons c m ih =>
    obtain ⟨k, b⟩ := c
    by_cases hc : k = a
    · subst hc
      cases hp : p k <;> simp_all [read_cons]
    · cases hp : p k <;> simp [read_cons, hp, hc, ih]

theorem mem_image {f : Nat → Byte} {n lo : Nat} {c : Host.Cell} :
    c ∈ Memory.image f lo n ↔ lo ≤ c.1 ∧ c.1 < lo + n ∧ c.2 = f c.1 ∧ c.2 ≠ 0#8 := by
  induction n generalizing lo with
  | zero => simp [Memory.image]; omega
  | succ n ih =>
    obtain ⟨k, b⟩ := c
    by_cases hz : f lo = 0#8
    · simp only [Memory.image, if_pos hz, ih]
      constructor
      · rintro ⟨h1, h2, h3, h4⟩; exact ⟨by omega, by omega, h3, h4⟩
      · rintro ⟨h1, h2, h3, h4⟩
        refine ⟨?_, by omega, h3, h4⟩
        rcases Nat.lt_or_ge lo k with h | h
        · exact h
        · have : k = lo := by omega
          subst this
          exact absurd (h3.trans hz) h4
    · simp only [Memory.image, if_neg hz, List.mem_cons, ih, Prod.mk.injEq]
      constructor
      · rintro (⟨rfl, rfl⟩ | ⟨h1, h2, h3, h4⟩)
        · exact ⟨le_refl _, by omega, rfl, hz⟩
        · exact ⟨by omega, by omega, h3, h4⟩
      · rintro ⟨h1, h2, h3, h4⟩
        rcases Nat.lt_or_ge lo k with h | h
        · exact .inr ⟨h, by omega, h3, h4⟩
        · have : k = lo := by omega
          subst this
          exact .inl ⟨rfl, h3⟩

theorem image_sorted (f : Nat → Byte) (n lo : Nat) :
    (Memory.image f lo n).Pairwise (fun x y => x.1 < y.1) := by
  induction n generalizing lo with
  | zero => simp [Memory.image]
  | succ n ih =>
    by_cases hz : f lo = 0#8
    · simp only [Memory.image, if_pos hz]; exact ih _
    · simp only [Memory.image, if_neg hz, List.pairwise_cons]
      exact ⟨fun c hc => (mem_image.mp hc).1, ih _⟩

theorem read_image (f : Nat → Byte) (n lo a : Nat) :
    Memory.read (Memory.image f lo n) a = if lo ≤ a ∧ a < lo + n then f a else 0#8 := by
  induction n generalizing lo with
  | zero =>
    rw [if_neg (by omega)]
    rfl
  | succ n ih =>
    by_cases hz : f lo = 0#8
    · simp only [Memory.image, if_pos hz, ih]
      by_cases ha : a = lo
      · subst ha; simp [hz]
      · congr 1; apply propext; omega
    · simp only [Memory.image, if_neg hz, read_cons, ih]
      by_cases ha : lo = a
      · subst ha; simp
      · rw [if_neg ha]; congr 1; apply propext; omega

/-- Read after a range write: the written bytes inside the range, the old ones outside. -/
theorem read_writeRange (m : Memory) (lo n : Nat) (f : Nat → Byte) (a : Nat) :
    (m.writeRange lo n f).read a = if lo ≤ a ∧ a < lo + n then f a else m.read a := by
  unfold Memory.writeRange
  have hlow : ∀ c ∈ m.filter (fun c => c.1 < lo), c.1 < lo := by simp
  have hhigh : ∀ c ∈ m.filter (fun c => lo + n ≤ c.1), lo + n ≤ c.1 := by simp
  have himg : ∀ c ∈ Memory.image f lo n, lo ≤ c.1 ∧ c.1 < lo + n := fun c hc =>
    ⟨(mem_image.mp hc).1, (mem_image.mp hc).2.1⟩
  rw [List.append_assoc]
  rcases Nat.lt_or_ge a lo with h | h
  · rw [if_neg (by omega)]
    by_cases hk : ∃ c ∈ m.filter (fun c => c.1 < lo), c.1 = a
    · rw [read_append_of_key _ hk, read_filter_key m (fun k => k < lo) a]; simp [h]
    · have hk' : ∀ c ∈ m.filter (fun c => c.1 < lo), c.1 ≠ a := fun c hc he => hk ⟨c, hc, he⟩
      rw [read_append_of_no_key _ hk']
      have hread := read_filter_key m (fun k => k < lo) a
      rw [read_eq_zero_of_no_key hk'] at hread
      rw [read_eq_zero_of_no_key]
      · simpa [h] using hread
      · intro c hc
        rcases List.mem_append.mp hc with hc | hc
        · have := himg c hc; omega
        · have := hhigh c hc; omega
  · rw [read_append_of_no_key _ (fun c hc => by have := hlow c hc; omega)]
    rcases Nat.lt_or_ge a (lo + n) with h' | h'
    · rw [if_pos ⟨h, h'⟩]
      by_cases hz : f a = 0#8
      · rw [hz, read_eq_zero_of_no_key]
        intro c hc he
        rcases List.mem_append.mp hc with hc | hc
        · obtain ⟨-, -, h3, h4⟩ := mem_image.mp hc
          exact h4 (h3.trans (he ▸ hz))
        · have := hhigh c hc; omega
      · rw [read_append_of_key _ ⟨(a, f a), mem_image.mpr ⟨h, h', rfl, hz⟩, rfl⟩, read_image,
          if_pos ⟨h, h'⟩]
    · rw [if_neg (by omega), read_append_of_no_key _ (fun c hc => by have := himg c hc; omega),
        read_filter_key m (fun k => lo + n ≤ k) a]
      simp [h']

/-- Read after a one-byte write. -/
theorem read_write (m : Memory) (a : Nat) (b : Byte) (a' : Nat) :
    (m.write a b).read a' = if a' = a then b else m.read a' := by
  rw [Memory.write, read_writeRange]
  congr 1; apply propext; omega

/-- A range write keeps the canonical form. -/
theorem wf_writeRange {m : Memory} (h : m.wf) (lo n : Nat) (f : Nat → Byte) :
    (m.writeRange lo n f).wf := by
  obtain ⟨hs, hz⟩ := h
  unfold Memory.writeRange
  constructor
  · rw [List.append_assoc, List.pairwise_append, List.pairwise_append]
    refine ⟨hs.filter _, ⟨image_sorted f n lo, hs.filter _, ?_⟩, ?_⟩
    · intro c hc d hd
      have h1 := (mem_image.mp hc).2.1
      simp only [List.mem_filter, decide_eq_true_eq] at hd
      omega
    · intro c hc d hd
      simp only [List.mem_filter, decide_eq_true_eq] at hc
      rcases List.mem_append.mp hd with hd | hd
      · have := (mem_image.mp hd).1; omega
      · simp only [List.mem_filter, decide_eq_true_eq] at hd; omega
  · intro c hc
    rw [List.append_assoc, List.mem_append, List.mem_append] at hc
    rcases hc with hc | hc | hc
    · exact hz c (List.mem_of_mem_filter hc)
    · exact (mem_image.mp hc).2.2.2
    · exact hz c (List.mem_of_mem_filter hc)

/-- A one-byte write keeps the canonical form. -/
theorem wf_write {m : Memory} (h : m.wf) (a : Nat) (b : Byte) : (m.write a b).wf :=
  wf_writeRange h a 1 _

/-- A range write inside the bound keeps the bound. -/
theorem bounded_writeRange {size : Nat} {m : Memory} (h : m.bounded size) {lo n : Nat}
    (hr : n ≠ 0 → lo + n ≤ size) (f : Nat → Byte) : (m.writeRange lo n f).bounded size := by
  unfold Memory.writeRange
  intro c hc
  rw [List.append_assoc, List.mem_append, List.mem_append] at hc
  rcases hc with hc | hc | hc
  · exact h c (List.mem_of_mem_filter hc)
  · have h1 := mem_image.mp hc
    have := hr (by omega)
    omega
  · exact h c (List.mem_of_mem_filter hc)

/-- A one-byte write inside the bound keeps the bound. -/
theorem bounded_write {size : Nat} {m : Memory} (h : m.bounded size) {a : Nat} (ha : a < size)
    (b : Byte) : (m.write a b).bounded size :=
  bounded_writeRange h (fun _ => ha) _

theorem mem_ofBytes_range {l : List Byte} {lo : Nat} {c : Host.Cell}
    (h : c ∈ Memory.ofBytes lo l) : lo ≤ c.1 ∧ c.1 < lo + l.length ∧ c.2 ≠ 0#8 := by
  induction l generalizing lo with
  | nil => simp [Memory.ofBytes] at h
  | cons b bs ih =>
    by_cases hz : b = 0#8
    · simp only [Memory.ofBytes, if_pos hz] at h
      have := ih h
      simp only [List.length_cons]; exact ⟨by omega, by omega, this.2.2⟩
    · simp only [Memory.ofBytes, if_neg hz, List.mem_cons] at h
      rcases h with rfl | h
      · simp only [List.length_cons]; exact ⟨le_refl _, by omega, hz⟩
      · have := ih h
        simp only [List.length_cons]; exact ⟨by omega, by omega, this.2.2⟩

/-- The contents of a draw are canonical. -/
theorem wf_ofBytes (l : List Byte) (lo : Nat) : (Memory.ofBytes lo l).wf := by
  refine ⟨?_, fun c hc => (mem_ofBytes_range hc).2.2⟩
  induction l generalizing lo with
  | nil => simp [Memory.ofBytes]
  | cons b bs ih =>
    by_cases hz : b = 0#8
    · simp only [Memory.ofBytes, if_pos hz]; exact ih _
    · simp only [Memory.ofBytes, if_neg hz, List.pairwise_cons]
      exact ⟨fun c hc => (mem_ofBytes_range hc).1, ih _⟩

/-- The contents of a draw of at most `size` bytes lie below `size`. -/
theorem bounded_ofBytes {l : List Byte} {size : Nat} (h : l.length ≤ size) :
    (Memory.ofBytes 0 l).bounded size := fun c hc => by
  have := mem_ofBytes_range hc; omega

/-- Each byte of a draw is read back. -/
theorem read_ofBytes (l : List Byte) (lo a : Nat) :
    (Memory.ofBytes lo l).read a = if lo ≤ a then l.getD (a - lo) 0#8 else 0#8 := by
  induction l generalizing lo with
  | nil => simp [Memory.ofBytes]
  | cons b bs ih =>
    have hnext : lo + 1 ≤ a → (b :: bs).getD (a - lo) 0#8 = bs.getD (a - (lo + 1)) 0#8 := by
      intro h
      obtain ⟨k, rfl⟩ := Nat.exists_eq_add_of_le h
      rw [show lo + 1 + k - lo = k + 1 by omega, show lo + 1 + k - (lo + 1) = k by omega]
      rfl
    by_cases hz : b = 0#8
    · simp only [Memory.ofBytes, if_pos hz, ih]
      rcases Nat.lt_trichotomy a lo with h | h | h
      · rw [if_neg (by omega), if_neg (by omega)]
      · subst h; simp [hz]
      · rw [if_pos (by omega), if_pos (by omega), hnext (by omega)]
    · simp only [Memory.ofBytes, if_neg hz, read_cons, ih]
      rcases Nat.lt_trichotomy a lo with h | h | h
      · rw [if_neg (by omega), if_neg (by omega), if_neg (by omega)]
      · subst h; simp
      · rw [if_neg (by omega), if_pos (by omega), if_pos (by omega), hnext (by omega)]

theorem read_eq_of_mem {m : Memory} (h : m.wf) {c : Host.Cell} (hc : c ∈ m) :
    m.read c.1 = c.2 := by
  induction m with
  | nil => simp at hc
  | cons d m ih =>
    obtain ⟨hs, hz⟩ := h
    rw [List.pairwise_cons] at hs
    rw [read_cons]
    rcases List.mem_cons.mp hc with rfl | hc
    · rw [if_pos rfl]
    · rw [if_neg (Nat.ne_of_lt (hs.1 c hc))]
      exact ih ⟨hs.2, fun e he => hz e (by simp [he])⟩ hc

theorem mem_iff_read {m : Memory} (h : m.wf) (c : Host.Cell) :
    c ∈ m ↔ m.read c.1 = c.2 ∧ c.2 ≠ 0#8 := by
  constructor
  · exact fun hc => ⟨read_eq_of_mem h hc, h.2 c hc⟩
  · rintro ⟨h1, h2⟩
    by_contra hc
    apply h2
    rw [← h1]
    apply read_eq_zero_of_no_key
    intro d hd he
    apply hc
    have := read_eq_of_mem h hd
    rw [he, h1] at this
    have hcd : c = d := Prod.ext he.symm this
    exact hcd ▸ hd

/-- Two canonical memories with the same contents are the same list. -/
theorem eq_of_read_eq {m m' : Memory} (h : m.wf) (h' : m'.wf)
    (hr : ∀ a, m.read a = m'.read a) : m = m' := by
  have hmem : ∀ c, c ∈ m ↔ c ∈ m' := fun c => by rw [mem_iff_read h, mem_iff_read h', hr]
  have nodup : ∀ {x : Memory}, x.wf → x.Nodup := fun hx =>
    hx.1.imp fun hlt heq => absurd hlt (by rw [heq]; exact Nat.lt_irrefl _)
  refine ((List.perm_ext_iff_of_nodup (nodup h) (nodup h')).mpr hmem).eq_of_pairwise ?_ h.1 h'.1
  intro a b _ _ hab hba
  exact absurd hab (Nat.not_lt.mpr (Nat.le_of_lt hba))

/-- A bounded memory reads 0x00 at and beyond its bound. -/
theorem read_of_bounded {size : Nat} {m : Memory} (h : m.bounded size) {a : Nat} (ha : size ≤ a) :
    m.read a = 0#8 :=
  read_eq_zero_of_no_key fun c hc => by have := h c hc; omega

end Memory

end Sys2Proof.Machine
end

