-- ==== Sys2Proof/Laws/Decode.lean ====
section
/-! SUPPORT. Laws of the decoder: the fields and the masks of R110 and R111 as arithmetic on the descriptor's
value, and the registers' offsets. -/

namespace Sys2Proof

theorem toNat_append_eq {n m : Nat} (x : BitVec n) (y : BitVec m) :
    (x ++ y).toNat = x.toNat * 2 ^ m + y.toNat := by
  rw [BitVec.toNat_append, ← Nat.shiftLeft_add_eq_or_of_lt y.isLt, Nat.shiftLeft_eq]

/-! ### Fields -/

theorem opField_toNat (w : Word) : (opField w).toNat = w.toNat % 256 := by
  simp [opField, BitVec.extractLsb'_toNat]

theorem cwRsvField_toNat (w : Word) : (cwRsvField w).toNat = w.toNat / 256 := by
  have := w.isLt
  simp only [cwRsvField, BitVec.extractLsb'_toNat, Nat.shiftRight_eq_div_pow]
  omega

theorem wField_eq (d : Desc) : wField d = decide (2 ^ 31 ≤ d.toNat) := by
  have := d.isLt
  simp only [wField, BitVec.getLsbD, Nat.testBit_eq_decide_div_mod_eq]
  apply decide_eq_decide.mpr
  omega

theorem szField_toNat (d : Desc) : (szField d).toNat = d.toNat / 2 ^ 28 % 8 := by
  simp [szField, BitVec.extractLsb'_toNat, Nat.shiftRight_eq_div_pow]

theorem htRsvField_toNat (d : Desc) : (htRsvField d).toNat = d.toNat / 2 ^ 23 % 32 := by
  simp [htRsvField, BitVec.extractLsb'_toNat, Nat.shiftRight_eq_div_pow]

theorem addrField_toNat (d : Desc) : (addrField d).toNat = d.toNat % 2 ^ 23 := by
  simp [addrField, BitVec.extractLsb'_toNat]

/-! ### Masks -/

theorem and_registerMask (d : Desc) :
    d &&& 0xFFFFFF87#32 = (d.extractLsb' 7 25 ++ 0#4) ++ d.extractLsb' 0 3 := by
  apply BitVec.eq_of_getLsbD_eq
  intro i hi
  simp only [BitVec.getLsbD_and, BitVec.getLsbD_append, BitVec.getLsbD_extractLsb']
  interval_cases i <;> simp

theorem and_bufMask (d : Desc) : d &&& 0xFFF00000#32 = d.extractLsb' 20 12 ++ 0#20 := by
  apply BitVec.eq_of_getLsbD_eq
  intro i hi
  simp only [BitVec.getLsbD_and, BitVec.getLsbD_append, BitVec.getLsbD_extractLsb']
  interval_cases i <;> simp

theorem and_rasMask (d : Desc) : d &&& 0xFFC00000#32 = d.extractLsb' 22 10 ++ 0#22 := by
  apply BitVec.eq_of_getLsbD_eq
  intro i hi
  simp only [BitVec.getLsbD_and, BitVec.getLsbD_append, BitVec.getLsbD_extractLsb']
  interval_cases i <;> simp

theorem descMatches_iff (d mask pattern : Desc) :
    descMatches d mask pattern = true ↔ (d &&& mask).toNat = pattern.toNat := by
  rw [descMatches, beq_iff_eq, BitVec.toNat_inj]

theorem descMatches_register (d pattern : Desc) :
    descMatches d 0xFFFFFF87#32 pattern = true ↔
      d.toNat / 128 * 128 + d.toNat % 8 = pattern.toNat := by
  have := d.isLt
  rw [descMatches_iff, and_registerMask, toNat_append_eq, toNat_append_eq]
  simp only [BitVec.extractLsb'_toNat, Nat.shiftRight_eq_div_pow, BitVec.toNat_ofNat]
  omega

theorem descMatches_buf (d pattern : Desc) :
    descMatches d 0xFFF00000#32 pattern = true ↔ d.toNat / 2 ^ 20 * 2 ^ 20 = pattern.toNat := by
  have := d.isLt
  rw [descMatches_iff, and_bufMask, toNat_append_eq]
  simp only [BitVec.extractLsb'_toNat, Nat.shiftRight_eq_div_pow, BitVec.toNat_ofNat]
  omega

theorem descMatches_ras (d pattern : Desc) :
    descMatches d 0xFFC00000#32 pattern = true ↔ d.toNat / 2 ^ 22 * 2 ^ 22 = pattern.toNat := by
  have := d.isLt
  rw [descMatches_iff, and_rasMask, toNat_append_eq]
  simp only [BitVec.extractLsb'_toNat, Nat.shiftRight_eq_div_pow, BitVec.toNat_ofNat]
  omega

/-! ### Registers -/

@[simp] theorem Reg.ofOffset_offset (r : Reg) : Reg.ofOffset r.offset = some r := by
  cases r <;> rfl

theorem Reg.ofOffset_eq_some {n : Nat} {r : Reg} : Reg.ofOffset n = some r ↔ n = r.offset := by
  constructor
  · intro h
    unfold Reg.ofOffset at h
    split at h <;> first | (cases h; rfl) | simp at h
  · rintro rfl
    exact Reg.ofOffset_offset r

theorem Reg.ofOffset_eq_none {n : Nat} (h : Reg.ofOffset n = none) : n % 8 ≠ 0 ∨ 0x70 ≤ n := by
  by_contra hc
  have h1 : n % 8 = 0 := by omega
  have h2 : n < 0x70 := by omega
  interval_cases n <;> first | omega | simp [Reg.ofOffset] at h

theorem Reg.offset_mod (r : Reg) : r.offset % 8 = 0 := by cases r <;> rfl

theorem Reg.offset_lt (r : Reg) : r.offset < 0x70 := by cases r <;> decide

/-! ### The two decoders -/

/-- A row's four possible answers, once for all three kinds of row. -/
theorem registerRow_eq_ok {mk : Reg → Instr} {d : Desc} {i : Instr} :
    registerRow mk d = .ok i ↔ ∃ r, i = mk r ∧ d.toNat % 2 ^ 23 = r.offset := by
  unfold registerRow
  rw [addrField_toNat]
  cases h : Reg.ofOffset (d.toNat % 2 ^ 23) with
  | none =>
    simp only [reduceCtorEq, false_iff, not_exists, not_and]
    intro r _ he
    rw [he, Reg.ofOffset_offset] at h
    cases h
  | some r =>
    have hr := Reg.ofOffset_eq_some.mp h
    simp only [Except.ok.injEq]
    constructor
    · rintro rfl; exact ⟨r, rfl, hr⟩
    · rintro ⟨r', rfl, hr'⟩
      rw [hr', Reg.ofOffset_offset] at h
      cases h
      rfl

theorem bufRow_eq_ok {gMax : Nat} {mk : BitVec 20 → Instr} {d : Desc} {i : Instr} :
    bufRow gMax mk d = .ok i ↔
      i = mk (d.extractLsb' 0 20) ∧ d.toNat % 2 ^ 20 < Config.bsMax gMax := by
  have hoff : (d.extractLsb' 0 20).toNat = d.toNat % 2 ^ 20 := by
    simp [BitVec.extractLsb'_toNat]
  simp only [bufRow, hoff]
  split
  · simp_all [eq_comm]
  · simp_all

theorem rasRow_eq_ok {gMax : Nat} {mk : BitVec 22 → Instr} {d : Desc} {i : Instr} :
    rasRow gMax mk d = .ok i ↔
      i = mk (d.extractLsb' 0 22) ∧ d.toNat % 2 ^ 22 < Config.rasMax gMax := by
  have hoff : (d.extractLsb' 0 22).toNat = d.toNat % 2 ^ 22 := by
    simp [BitVec.extractLsb'_toNat]
  simp only [rasRow, hoff]
  split
  · simp_all [eq_comm]
  · simp_all

theorem registerRow_error {mk : Reg → Instr} {d : Desc} {e : DecodeError}
    (h : registerRow mk d = .error e) : e = .busError := by
  unfold registerRow at h
  split at h <;> cases h
  rfl

theorem bufRow_error {gMax : Nat} {mk : BitVec 20 → Instr} {d : Desc} {e : DecodeError}
    (h : bufRow gMax mk d = .error e) : e = .busError := by
  simp only [bufRow] at h
  split at h <;> cases h
  rfl

theorem rasRow_error {gMax : Nat} {mk : BitVec 22 → Instr} {d : Desc} {e : DecodeError}
    (h : rasRow gMax mk d = .error e) : e = .busError := by
  simp only [rasRow] at h
  split at h <;> cases h
  rfl

/-- The decoder of descriptors refuses under one name only. -/
theorem decodeAccess_error {gMax : Nat} {d : Desc} {e : DecodeError}
    (h : decodeAccess gMax d = .error e) : e = .busError := by
  unfold decodeAccess at h
  split at h; · exact registerRow_error h
  split at h; · exact registerRow_error h
  split at h; · exact bufRow_error h
  split at h; · exact bufRow_error h
  split at h; · exact rasRow_error h
  split at h; · exact rasRow_error h
  cases h; rfl

/-- The decoder of command words names no host operation. -/
theorem decodeCommand_isCommand {w : Word} {i : Instr} (h : decodeCommand w = .ok i) :
    encodeWidth i = 64 := by
  unfold decodeCommand at h
  split at h
  · cases h
  · split at h <;> cases h <;> rfl

/-- The decoder of descriptors names no command. -/
theorem decodeAccess_isHostOp {gMax : Nat} {d : Desc} {i : Instr}
    (h : decodeAccess gMax d = .ok i) : encodeWidth i = 32 := by
  unfold decodeAccess at h
  split at h
  · obtain ⟨r, rfl, -⟩ := registerRow_eq_ok.mp h; rfl
  split at h
  · obtain ⟨r, rfl, -⟩ := registerRow_eq_ok.mp h; rfl
  split at h
  · obtain ⟨rfl, -⟩ := bufRow_eq_ok.mp h; rfl
  split at h
  · obtain ⟨rfl, -⟩ := bufRow_eq_ok.mp h; rfl
  split at h
  · obtain ⟨rfl, -⟩ := rasRow_eq_ok.mp h; rfl
  split at h
  · obtain ⟨rfl, -⟩ := rasRow_eq_ok.mp h; rfl
  · cases h

/-- Everything `decodeAccess` can answer: the rows of R111 as arithmetic on the descriptor's value. -/
theorem decodeAccess_eq_ok {gMax : Nat} {d : Desc} {i : Instr} :
    decodeAccess gMax d = .ok i ↔
      (d.toNat / 128 * 128 + d.toNat % 8 = 0x30000000 ∧
        ∃ r, i = .regRd r ∧ d.toNat % 2 ^ 23 = r.offset) ∨
      (d.toNat / 128 * 128 + d.toNat % 8 = 0xB0000000 ∧
        ∃ r, i = .regWr r ∧ d.toNat % 2 ^ 23 = r.offset) ∨
      (d.toNat / 2 ^ 20 = 0x001 ∧
        i = .bufRd (d.extractLsb' 0 20) ∧ d.toNat % 2 ^ 20 < Config.bsMax gMax) ∨
      (d.toNat / 2 ^ 20 = 0x801 ∧
        i = .bufWr (d.extractLsb' 0 20) ∧ d.toNat % 2 ^ 20 < Config.bsMax gMax) ∨
      (d.toNat / 2 ^ 22 = 0x001 ∧
        i = .rasRd (d.extractLsb' 0 22) ∧ d.toNat % 2 ^ 22 < Config.rasMax gMax) ∨
      (d.toNat / 2 ^ 22 = 0x201 ∧
        i = .rasWr (d.extractLsb' 0 22) ∧ d.toNat % 2 ^ 22 < Config.rasMax gMax) := by
  have m1 := descMatches_register d 0x30000000#32
  have m2 := descMatches_register d 0xB0000000#32
  have m3 := descMatches_buf d 0x00100000#32
  have m4 := descMatches_buf d 0x80100000#32
  have m5 := descMatches_ras d 0x00400000#32
  have m6 := descMatches_ras d 0x80400000#32
  simp only [BitVec.toNat_ofNat, Nat.reducePow, Nat.reduceMod] at m1 m2 m3 m4 m5 m6
  unfold decodeAccess
  simp only [m1, m2, m3, m4, m5, m6]
  split_ifs <;>
    simp only [registerRow_eq_ok, bufRow_eq_ok, rasRow_eq_ok, Nat.reducePow]
  all_goals
    constructor
  all_goals
    first
    | (intro h; first
        | exact .inl ⟨by omega, h⟩
        | exact .inr (.inl ⟨by omega, h⟩)
        | exact .inr (.inr (.inl ⟨by omega, h⟩))
        | exact .inr (.inr (.inr (.inl ⟨by omega, h⟩)))
        | exact .inr (.inr (.inr (.inr (.inl ⟨by omega, h⟩))))
        | exact .inr (.inr (.inr (.inr (.inr ⟨by omega, h⟩))))
        | exact h.elim)
    | (rintro (⟨hg, h⟩ | ⟨hg, h⟩ | ⟨hg, h⟩ | ⟨hg, h⟩ | ⟨hg, h⟩ | ⟨hg, h⟩) <;>
        first | exact h | omega)

end Sys2Proof
end

