-- ==== Sys2Proof/Laws/Operands.lean ====
section
/-! SUPPORT. Laws of the quantities the rules compute with: sizes in a legal configuration, the fields of
`ARG`, the block count, and the bytes and bits of the data path. -/

namespace Sys2Proof.Machine

/-! ### Fields of `ARG` as arithmetic on its value -/

theorem argGdiv8_toNat (a : Word) : (argGdiv8 a).toNat = a.toNat % 256 := by
  simp [argGdiv8, BitVec.extractLsb'_toNat]

theorem argThresh_toNat (a : Word) : (argThresh a).toNat = a.toNat / 256 % 256 := by
  simp [argThresh, BitVec.extractLsb'_toNat, Nat.shiftRight_eq_div_pow]

theorem argRsv_toNat (a : Word) : (argRsv a).toNat = a.toNat / 65536 := by
  have := a.isLt
  simp only [argRsv, BitVec.extractLsb'_toNat, Nat.shiftRight_eq_div_pow]
  omega

theorem cfgOperandBad_iff (gMax : Nat) (a : Word) :
    cfgOperandBad gMax a = true ↔
      a.toNat / 65536 ≠ 0 ∨ a.toNat % 256 = 0 ∨ gMax / 8 < a.toNat % 256
        ∨ a.toNat / 256 % 256 = 255 := by
  simp only [cfgOperandBad, decide_eq_true_eq, ne_eq, ← BitVec.toNat_inj, argGdiv8_toNat,
    argThresh_toNat, argRsv_toNat, BitVec.toNat_ofNat]

/-! ### Sizes -/

theorem grid_sq (s : State) : s.grid * s.grid = 8 * s.blockSize := by
  unfold State.grid State.blockSize; ring

theorem eight_le_blockSize {s : State} (h : 1 ≤ s.gdiv8.toNat) : 8 ≤ s.blockSize := by
  unfold State.blockSize; nlinarith

theorem blockSize_le (s : State) : s.blockSize ≤ 520200 := by
  have : s.gdiv8.toNat ≤ 255 := by have := s.gdiv8.isLt; omega
  unfold State.blockSize; nlinarith

/-- A legal configuration's block fits the physical block buffer (R33, R52). -/
theorem blockSize_le_bsMax {s : State} {g : Nat} (hg : Config.LegalGMax g)
    (h : s.gdiv8.toNat ≤ g / 8) : s.blockSize ≤ Config.bsMax g := by
  obtain ⟨k, rfl⟩ : ∃ k, g = 8 * k := ⟨g / 8, by have := hg.1; omega⟩
  have hk : s.gdiv8.toNat ≤ k := by omega
  have : Config.bsMax (8 * k) = 8 * (k * k) := by
    unfold Config.bsMax
    rw [show 8 * k * (8 * k) = 8 * (8 * (k * k)) by ring, Nat.mul_div_cancel_left _ (by omega)]
  rw [this]
  unfold State.blockSize; nlinarith

/-- A legal configuration's raster fits the physical raster buffer (R33, R53). -/
theorem grid_sq_le_rasMax {s : State} {g : Nat} (h : s.gdiv8.toNat ≤ g / 8) :
    s.grid * s.grid ≤ Config.rasMax g := by
  have : s.grid ≤ g := by unfold State.grid; omega
  unfold Config.rasMax; nlinarith

/-- The windows of a legal build fit their address ranges (R71). -/
theorem bsMax_le {g : Nat} (h : Config.LegalGMax g) : Config.bsMax g ≤ 520200 := by
  have : g * g ≤ 2040 * 2040 := Nat.mul_le_mul h.2.2 h.2.2
  unfold Config.bsMax; omega

theorem rasMax_le {g : Nat} (h : Config.LegalGMax g) : Config.rasMax g ≤ 4161600 := by
  have : g * g ≤ 2040 * 2040 := Nat.mul_le_mul h.2.2 h.2.2
  unfold Config.rasMax; omega

/-! ### The block count -/

/-- The block count is the least number of blocks that holds the header and the payload. -/
theorem le_blockCount_iff {f bs k : Nat} (hbs : 8 ≤ bs) :
    k < blockCount f bs ↔ k * bs < f + 8 := by
  unfold blockCount
  rw [Nat.lt_div_iff_mul_lt (by omega)]
  omega

theorem blockCount_pos {f bs : Nat} (hbs : 8 ≤ bs) : 1 ≤ blockCount f bs :=
  (le_blockCount_iff hbs).mpr (by omega)

/-- The block count of a 64-bit size fits a register (R199). -/
theorem blockCount_le {f bs : Nat} (hbs : 8 ≤ bs) (hf : f < 2 ^ 64) :
    blockCount f bs ≤ 2 ^ 61 + 1 := by
  by_contra h
  have := (le_blockCount_iff (f := f) hbs).mp (Nat.lt_of_not_le h)
  nlinarith

/-! ### Storing a value that fits -/

theorem ofNat64_toNat {n : Nat} (h : n < 2 ^ 64) : (BitVec.ofNat 64 n).toNat = n := by
  simp only [BitVec.toNat_ofNat]; exact Nat.mod_eq_of_lt h

/-! ### Bytes and bits -/

theorem be64_toNat (f : Word) {k : Nat} (hk : k < 8) :
    (be64 f k).toNat = f.toNat / 256 ^ (7 - k) % 256 := by
  simp only [be64, BitVec.extractLsb'_toNat, Nat.shiftRight_eq_div_pow]
  rw [show (256 : Nat) = 2 ^ 8 from rfl, ← Nat.pow_mul, show 8 * (7 - k) = 56 - 8 * k by omega]

theorem unbe64_eq (b : Nat → Byte) :
    unbe64 b = (b 0).toNat * 256 ^ 7 + (b 1).toNat * 256 ^ 6 + (b 2).toNat * 256 ^ 5
      + (b 3).toNat * 256 ^ 4 + (b 4).toNat * 256 ^ 3 + (b 5).toNat * 256 ^ 2
      + (b 6).toNat * 256 + (b 7).toNat := by
  simp only [unbe64, List.range, List.range.loop, List.foldl]
  ring

theorem unbe64_lt (b : Nat → Byte) : unbe64 b < 2 ^ 64 := by
  rw [unbe64_eq]
  have h : ∀ k, (b k).toNat < 256 := fun k => (b k).isLt
  have := h 0; have := h 1; have := h 2; have := h 3
  have := h 4; have := h 5; have := h 6; have := h 7
  omega

theorem unbe64_congr {b b' : Nat → Byte} (h : ∀ k < 8, b k = b' k) : unbe64 b = unbe64 b' := by
  simp only [unbe64_eq, h 0 (by omega), h 1 (by omega), h 2 (by omega), h 3 (by omega),
    h 4 (by omega), h 5 (by omega), h 6 (by omega), h 7 (by omega)]

@[simp] theorem ser8_length (b : Byte) : (ser8 b).length = 8 := by simp [ser8]

/-- Bit `i` of a block is bit `i mod 8` of the serialized byte `i div 8` (R162). -/
theorem bitAt_eq_ser8 (b : Nat → Byte) (i : Nat) :
    bitAt b i = (ser8 (b (i / 8))).getD (i % 8) false := by
  have h : i % 8 < 8 := Nat.mod_lt _ (by omega)
  simp [bitAt, ser8, List.getD, h]

/-- Bit `7 − k` of a packed byte is the `k`-th of the eight bits (R161). -/
theorem deser8_getLsbD (s : Nat → Bool) {k : Nat} (hk : k < 8) :
    (deser8 ((List.range 8).map s)).getLsbD (7 - k) = s k := by
  have key : ∀ s0 s1 s2 s3 s4 s5 s6 s7 : Bool, ∀ k : Fin 8,
      (deser8 [s0, s1, s2, s3, s4, s5, s6, s7]).getLsbD (7 - k.val)
        = [s0, s1, s2, s3, s4, s5, s6, s7].getD k.val false := by decide
  have := key (s 0) (s 1) (s 2) (s 3) (s 4) (s 5) (s 6) (s 7) ⟨k, hk⟩
  have hmap : (List.range 8).map s = [s 0, s 1, s 2, s 3, s 4, s 5, s 6, s 7] := rfl
  rw [hmap, this]
  interval_cases k <;> rfl

end Sys2Proof.Machine
end

