-- ==== Sys2Proof/Laws/State.lean ====
section
/-! SUPPORT. One lemma per field for each shared update of State, so that no later proof unfolds one. -/

namespace Sys2Proof.Machine

/-! ### `recordError` -/

theorem recordError_of_err {s : State} (h : s.err = true) (c : ErrCode) : recordError c s = s := by
  simp [recordError, h]

theorem recordError_of_not_err {s : State} (h : s.err = false) (c : ErrCode) :
    recordError c s = { s with err := true, code := c } := by
  simp [recordError, h]

/-- Everything `recordError` can do: only the latch changes. -/
theorem recordError_eq (c : ErrCode) (s : State) :
    recordError c s = { s with err := true, code := if s.err then s.code else c } := by
  cases h : s.err
  · simp [recordError, h]
  · simp only [recordError, h, if_true]
    exact h ▸ rfl

@[simp] theorem recordError_err (c : ErrCode) (s : State) : (recordError c s).err = true := by
  rw [recordError_eq]

@[simp] theorem recordError_code (c : ErrCode) (s : State) :
    (recordError c s).code = if s.err then s.code else c := by
  rw [recordError_eq]

@[simp] theorem recordError_id (c : ErrCode) (s : State) : (recordError c s).id = s.id := by
  rw [recordError_eq]

@[simp] theorem recordError_cap (c : ErrCode) (s : State) : (recordError c s).cap = s.cap := by
  rw [recordError_eq]

@[simp] theorem recordError_gdiv8 (c : ErrCode) (s : State) : (recordError c s).gdiv8 = s.gdiv8 := by
  rw [recordError_eq]

@[simp] theorem recordError_thresh (c : ErrCode) (s : State) : (recordError c s).thresh = s.thresh := by
  rw [recordError_eq]

@[simp] theorem recordError_done (c : ErrCode) (s : State) : (recordError c s).done = s.done := by
  rw [recordError_eq]

@[simp] theorem recordError_hdr (c : ErrCode) (s : State) : (recordError c s).hdr = s.hdr := by
  rw [recordError_eq]

@[simp] theorem recordError_extra (c : ErrCode) (s : State) : (recordError c s).extra = s.extra := by
  rw [recordError_eq]

@[simp] theorem recordError_inc (c : ErrCode) (s : State) : (recordError c s).inc = s.inc := by
  rw [recordError_eq]

@[simp] theorem recordError_mode (c : ErrCode) (s : State) : (recordError c s).mode = s.mode := by
  rw [recordError_eq]

@[simp] theorem recordError_arg (c : ErrCode) (s : State) : (recordError c s).arg = s.arg := by
  rw [recordError_eq]

@[simp] theorem recordError_fsize (c : ErrCode) (s : State) : (recordError c s).fsize = s.fsize := by
  rw [recordError_eq]

@[simp] theorem recordError_nblk (c : ErrCode) (s : State) : (recordError c s).nblk = s.nblk := by
  rw [recordError_eq]

@[simp] theorem recordError_bidx (c : ErrCode) (s : State) : (recordError c s).bidx = s.bidx := by
  rw [recordError_eq]

@[simp] theorem recordError_pos (c : ErrCode) (s : State) : (recordError c s).pos = s.pos := by
  rw [recordError_eq]

@[simp] theorem recordError_spanoff (c : ErrCode) (s : State) : (recordError c s).spanoff = s.spanoff := by
  rw [recordError_eq]

@[simp] theorem recordError_spanlen (c : ErrCode) (s : State) : (recordError c s).spanlen = s.spanlen := by
  rw [recordError_eq]

@[simp] theorem recordError_buf (c : ErrCode) (s : State) : (recordError c s).buf = s.buf := by
  rw [recordError_eq]

@[simp] theorem recordError_ras (c : ErrCode) (s : State) : (recordError c s).ras = s.ras := by
  rw [recordError_eq]

@[simp] theorem recordError_inputs (c : ErrCode) (s : State) : (recordError c s).inputs = s.inputs := by
  rw [recordError_eq]

@[simp] theorem recordError_wdata (c : ErrCode) (s : State) : (recordError c s).wdata = s.wdata := by
  rw [recordError_eq]

@[simp] theorem recordError_rdata (c : ErrCode) (s : State) : (recordError c s).rdata = s.rdata := by
  rw [recordError_eq]

@[simp] theorem recordError_gMax (c : ErrCode) (s : State) : (recordError c s).gMax = s.gMax := by
  simp [State.gMax]

@[simp] theorem recordError_grid (c : ErrCode) (s : State) : (recordError c s).grid = s.grid := by
  simp [State.grid]

@[simp] theorem recordError_blockSize (c : ErrCode) (s : State) : (recordError c s).blockSize = s.blockSize := by
  simp [State.blockSize]

/-! ### `busErrorRead`, `busErrorWrite` -/

@[simp] theorem busErrorWrite_eq (s : State) : busErrorWrite s = recordError .bus s := rfl

@[simp] theorem busErrorRead_rdata (s : State) : (busErrorRead s).rdata = 0#64 := rfl

@[simp] theorem busErrorRead_id (s : State) :
    (busErrorRead s).id = (recordError .bus s).id := rfl

@[simp] theorem busErrorRead_cap (s : State) :
    (busErrorRead s).cap = (recordError .bus s).cap := rfl

@[simp] theorem busErrorRead_gdiv8 (s : State) :
    (busErrorRead s).gdiv8 = (recordError .bus s).gdiv8 := rfl

@[simp] theorem busErrorRead_thresh (s : State) :
    (busErrorRead s).thresh = (recordError .bus s).thresh := rfl

@[simp] theorem busErrorRead_err (s : State) :
    (busErrorRead s).err = (recordError .bus s).err := rfl

@[simp] theorem busErrorRead_done (s : State) :
    (busErrorRead s).done = (recordError .bus s).done := rfl

@[simp] theorem busErrorRead_hdr (s : State) :
    (busErrorRead s).hdr = (recordError .bus s).hdr := rfl

@[simp] theorem busErrorRead_extra (s : State) :
    (busErrorRead s).extra = (recordError .bus s).extra := rfl

@[simp] theorem busErrorRead_inc (s : State) :
    (busErrorRead s).inc = (recordError .bus s).inc := rfl

@[simp] theorem busErrorRead_mode (s : State) :
    (busErrorRead s).mode = (recordError .bus s).mode := rfl

@[simp] theorem busErrorRead_code (s : State) :
    (busErrorRead s).code = (recordError .bus s).code := rfl

@[simp] theorem busErrorRead_arg (s : State) :
    (busErrorRead s).arg = (recordError .bus s).arg := rfl

@[simp] theorem busErrorRead_fsize (s : State) :
    (busErrorRead s).fsize = (recordError .bus s).fsize := rfl

@[simp] theorem busErrorRead_nblk (s : State) :
    (busErrorRead s).nblk = (recordError .bus s).nblk := rfl

@[simp] theorem busErrorRead_bidx (s : State) :
    (busErrorRead s).bidx = (recordError .bus s).bidx := rfl

@[simp] theorem busErrorRead_pos (s : State) :
    (busErrorRead s).pos = (recordError .bus s).pos := rfl

@[simp] theorem busErrorRead_spanoff (s : State) :
    (busErrorRead s).spanoff = (recordError .bus s).spanoff := rfl

@[simp] theorem busErrorRead_spanlen (s : State) :
    (busErrorRead s).spanlen = (recordError .bus s).spanlen := rfl

@[simp] theorem busErrorRead_buf (s : State) :
    (busErrorRead s).buf = (recordError .bus s).buf := rfl

@[simp] theorem busErrorRead_ras (s : State) :
    (busErrorRead s).ras = (recordError .bus s).ras := rfl

@[simp] theorem busErrorRead_inputs (s : State) :
    (busErrorRead s).inputs = (recordError .bus s).inputs := rfl

@[simp] theorem busErrorRead_wdata (s : State) :
    (busErrorRead s).wdata = (recordError .bus s).wdata := rfl

/-! ### `beginAccess` -/

@[simp] theorem beginAccess_id (a : Access) (rest : List Input) (s : State) :
    (beginAccess a rest s).id = s.id := rfl

@[simp] theorem beginAccess_cap (a : Access) (rest : List Input) (s : State) :
    (beginAccess a rest s).cap = s.cap := rfl

@[simp] theorem beginAccess_gdiv8 (a : Access) (rest : List Input) (s : State) :
    (beginAccess a rest s).gdiv8 = s.gdiv8 := rfl

@[simp] theorem beginAccess_thresh (a : Access) (rest : List Input) (s : State) :
    (beginAccess a rest s).thresh = s.thresh := rfl

@[simp] theorem beginAccess_err (a : Access) (rest : List Input) (s : State) :
    (beginAccess a rest s).err = s.err := rfl

@[simp] theorem beginAccess_done (a : Access) (rest : List Input) (s : State) :
    (beginAccess a rest s).done = s.done := rfl

@[simp] theorem beginAccess_hdr (a : Access) (rest : List Input) (s : State) :
    (beginAccess a rest s).hdr = s.hdr := rfl

@[simp] theorem beginAccess_extra (a : Access) (rest : List Input) (s : State) :
    (beginAccess a rest s).extra = s.extra := rfl

@[simp] theorem beginAccess_inc (a : Access) (rest : List Input) (s : State) :
    (beginAccess a rest s).inc = s.inc := rfl

@[simp] theorem beginAccess_mode (a : Access) (rest : List Input) (s : State) :
    (beginAccess a rest s).mode = s.mode := rfl

@[simp] theorem beginAccess_code (a : Access) (rest : List Input) (s : State) :
    (beginAccess a rest s).code = s.code := rfl

@[simp] theorem beginAccess_arg (a : Access) (rest : List Input) (s : State) :
    (beginAccess a rest s).arg = s.arg := rfl

@[simp] theorem beginAccess_fsize (a : Access) (rest : List Input) (s : State) :
    (beginAccess a rest s).fsize = s.fsize := rfl

@[simp] theorem beginAccess_nblk (a : Access) (rest : List Input) (s : State) :
    (beginAccess a rest s).nblk = s.nblk := rfl

@[simp] theorem beginAccess_bidx (a : Access) (rest : List Input) (s : State) :
    (beginAccess a rest s).bidx = s.bidx := rfl

@[simp] theorem beginAccess_pos (a : Access) (rest : List Input) (s : State) :
    (beginAccess a rest s).pos = s.pos := rfl

@[simp] theorem beginAccess_spanoff (a : Access) (rest : List Input) (s : State) :
    (beginAccess a rest s).spanoff = s.spanoff := rfl

@[simp] theorem beginAccess_spanlen (a : Access) (rest : List Input) (s : State) :
    (beginAccess a rest s).spanlen = s.spanlen := rfl

@[simp] theorem beginAccess_buf (a : Access) (rest : List Input) (s : State) :
    (beginAccess a rest s).buf = s.buf := rfl

@[simp] theorem beginAccess_ras (a : Access) (rest : List Input) (s : State) :
    (beginAccess a rest s).ras = s.ras := rfl

@[simp] theorem beginAccess_inputs (a : Access) (rest : List Input) (s : State) :
    (beginAccess a rest s).inputs = rest := rfl

@[simp] theorem beginAccess_wdata (a : Access) (rest : List Input) (s : State) :
    (beginAccess a rest s).wdata = a.data := rfl

@[simp] theorem beginAccess_rdata (a : Access) (rest : List Input) (s : State) :
    (beginAccess a rest s).rdata = s.rdata := rfl

@[simp] theorem beginAccess_gMax (a : Access) (rest : List Input) (s : State) :
    (beginAccess a rest s).gMax = s.gMax := rfl

@[simp] theorem beginAccess_grid (a : Access) (rest : List Input) (s : State) :
    (beginAccess a rest s).grid = s.grid := rfl

@[simp] theorem beginAccess_blockSize (a : Access) (rest : List Input) (s : State) :
    (beginAccess a rest s).blockSize = s.blockSize := rfl

/-! ### `platformReset` -/

@[simp] theorem platformReset_id (b r : List Byte) (s : State) :
    (platformReset b r s).id = State.reset.id := rfl

@[simp] theorem platformReset_cap (b r : List Byte) (s : State) :
    (platformReset b r s).cap = s.cap := rfl

@[simp] theorem platformReset_gdiv8 (b r : List Byte) (s : State) :
    (platformReset b r s).gdiv8 = State.reset.gdiv8 := rfl

@[simp] theorem platformReset_thresh (b r : List Byte) (s : State) :
    (platformReset b r s).thresh = State.reset.thresh := rfl

@[simp] theorem platformReset_err (b r : List Byte) (s : State) :
    (platformReset b r s).err = State.reset.err := rfl

@[simp] theorem platformReset_done (b r : List Byte) (s : State) :
    (platformReset b r s).done = State.reset.done := rfl

@[simp] theorem platformReset_hdr (b r : List Byte) (s : State) :
    (platformReset b r s).hdr = State.reset.hdr := rfl

@[simp] theorem platformReset_extra (b r : List Byte) (s : State) :
    (platformReset b r s).extra = State.reset.extra := rfl

@[simp] theorem platformReset_inc (b r : List Byte) (s : State) :
    (platformReset b r s).inc = State.reset.inc := rfl

@[simp] theorem platformReset_mode (b r : List Byte) (s : State) :
    (platformReset b r s).mode = State.reset.mode := rfl

@[simp] theorem platformReset_code (b r : List Byte) (s : State) :
    (platformReset b r s).code = State.reset.code := rfl

@[simp] theorem platformReset_arg (b r : List Byte) (s : State) :
    (platformReset b r s).arg = State.reset.arg := rfl

@[simp] theorem platformReset_fsize (b r : List Byte) (s : State) :
    (platformReset b r s).fsize = State.reset.fsize := rfl

@[simp] theorem platformReset_nblk (b r : List Byte) (s : State) :
    (platformReset b r s).nblk = State.reset.nblk := rfl

@[simp] theorem platformReset_bidx (b r : List Byte) (s : State) :
    (platformReset b r s).bidx = State.reset.bidx := rfl

@[simp] theorem platformReset_pos (b r : List Byte) (s : State) :
    (platformReset b r s).pos = State.reset.pos := rfl

@[simp] theorem platformReset_spanoff (b r : List Byte) (s : State) :
    (platformReset b r s).spanoff = State.reset.spanoff := rfl

@[simp] theorem platformReset_spanlen (b r : List Byte) (s : State) :
    (platformReset b r s).spanlen = State.reset.spanlen := rfl

@[simp] theorem platformReset_buf (b r : List Byte) (s : State) :
    (platformReset b r s).buf = Memory.ofBytes 0 (b.take (Config.bsMax s.gMax)) := rfl

@[simp] theorem platformReset_ras (b r : List Byte) (s : State) :
    (platformReset b r s).ras = Memory.ofBytes 0 (r.take (Config.rasMax s.gMax)) := rfl

@[simp] theorem platformReset_inputs (b r : List Byte) (s : State) :
    (platformReset b r s).inputs = s.inputs := rfl

@[simp] theorem platformReset_wdata (b r : List Byte) (s : State) :
    (platformReset b r s).wdata = State.reset.wdata := rfl

@[simp] theorem platformReset_rdata (b r : List Byte) (s : State) :
    (platformReset b r s).rdata = State.reset.rdata := rfl

@[simp] theorem platformReset_gMax (b r : List Byte) (s : State) :
    (platformReset b r s).gMax = s.gMax := rfl

/-- Reset of the default build with the empty draw is `State.reset`. -/
theorem platformReset_default : platformReset [] [] State.reset = State.reset := rfl

end Sys2Proof.Machine
end

