-- ==== Sys2Proof/Laws/Ops.lean ====
section
/-! SUPPORT. What each shared operation answers, said once: rejection, the mode check, the execution of a
command word, and the three ways a step goes. -/

namespace Sys2Proof.Machine

@[simp] theorem reject_eq (c : ErrCode) (s : State) : reject c s = .next (recordError c s) := rfl

theorem whenLegal_of_legal {i : Instr} {s : State} (h : legalIn i s.mode = true) (run : Result) :
    whenLegal i s run = run := by
  simp [whenLegal, h]

theorem whenLegal_of_illegal {i : Instr} {s : State} (h : legalIn i s.mode = false) (run : Result) :
    whenLegal i s run = .next (recordError .mode s) := by
  simp [whenLegal, h]

/-- Everything the mode check can do. -/
theorem whenLegal_cases {i : Instr} {s t : State} {run : Result} (h : whenLegal i s run = .next t) :
    (legalIn i s.mode = true ∧ run = .next t) ∨
      (legalIn i s.mode = false ∧ t = recordError .mode s) := by
  cases hl : legalIn i s.mode
  · rw [whenLegal_of_illegal hl] at h
    cases h
    exact .inr ⟨rfl, rfl⟩
  · rw [whenLegal_of_legal hl] at h
    exact .inl ⟨rfl, h⟩

/-- A command word that decodes is executed as its command (R100). -/
theorem executeWord_of_ok {w : Word} {c : Instr} (h : decodeCommand w = .ok c) (s : State) :
    executeWord w s = exec c s := by
  have hc := decodeCommand_isCommand h
  unfold executeWord
  rw [h]
  cases c <;> first | rfl | simp [encodeWidth] at hc

/-- A command word that does not decode is rejected with `ILLEGAL` (R107). -/
theorem executeWord_of_error {w : Word} {e : DecodeError} (h : decodeCommand w = .error e)
    (s : State) : executeWord w s = .next (recordError .illegal s) := by
  unfold executeWord
  rw [h]
  rfl

/-- Everything a write to `CMD` can do. -/
theorem exec_regWr_cmd_cases {s t : State} (h : exec (.regWr .cmd) s = .next t) :
    (∃ c, decodeCommand s.wdata = .ok c ∧ performed (.regWr .cmd) s = c ∧ encodeWidth c = 64 ∧
      exec c s = .next t) ∨
    ((∃ e, decodeCommand s.wdata = .error e) ∧ performed (.regWr .cmd) s = .regWr .cmd ∧
      t = recordError .illegal s) := by
  change executeWord s.wdata s = .next t at h
  cases hd : decodeCommand s.wdata with
  | ok c =>
    rw [executeWord_of_ok hd] at h
    exact .inl ⟨c, rfl, by simp [performed, hd], decodeCommand_isCommand hd, h⟩
  | error e =>
    rw [executeWord_of_error hd] at h
    cases h
    exact .inr ⟨⟨e, rfl⟩, by simp [performed, hd], rfl⟩

theorem performed_of_ne {i : Instr} (h : i ≠ .regWr .cmd) (s : State) : performed i s = i := by
  simp [performed, h]

/-- The three ways a step goes: it waits, it takes a reset, or it takes an access, which runs an instruction
or is a bus error. -/
theorem step_cases {s t : State} (h : step s = .next t) :
    (s.inputs = [] ∧ t = s) ∨
    (∃ b r rest, s.inputs = .reset b r :: rest ∧ t = platformReset b r { s with inputs := rest }) ∨
    (∃ a rest, s.inputs = .access a :: rest ∧
      ((∃ i, decodeAccess s.gMax a.desc = .ok i ∧ exec i (beginAccess a rest s) = .next t) ∨
        ((∃ e, decodeAccess s.gMax a.desc = .error e) ∧
          t = if wField a.desc = true then busErrorWrite (beginAccess a rest s)
            else busErrorRead (beginAccess a rest s)))) := by
  cases hi : s.inputs with
  | nil =>
    have : step s = .next s := by simp [step, fetch, hi]
    rw [this] at h
    cases h
    exact .inl ⟨rfl, rfl⟩
  | cons x rest =>
    cases x with
    | reset b r =>
      have : step s = .next (platformReset b r { s with inputs := rest }) := by
        simp [step, fetch, hi]
      rw [this] at h
      cases h
      exact .inr (.inl ⟨b, r, rest, rfl, rfl⟩)
    | access a =>
      refine .inr (.inr ⟨a, rest, rfl, ?_⟩)
      simp only [step, fetch, hi, fetchAccess, beginAccess_gMax] at h
      cases hd : decodeAccess s.gMax a.desc with
      | ok i =>
        rw [hd] at h
        exact .inl ⟨i, rfl, h⟩
      | error e =>
        rw [hd] at h
        cases h
        exact .inr ⟨⟨e, rfl⟩, rfl⟩

end Sys2Proof.Machine
end

