-- ==== Sys2Proof/Laws/Commands.lean ====
section
/-! SUPPORT. One inversion lemma per command: everything the command can do, its rejections among them. -/

namespace Sys2Proof.Machine

theorem exec_nop_cases {s t : State} (h : exec .nop s = .next t) : t = s := by
  cases h; rfl

theorem exec_cfg_cases {s t : State} (h : exec .cfg s = .next t) :
    (s.mode ≠ .idle ∧ t = recordError .mode s) ∨
    (s.mode = .idle ∧ cfgOperandBad s.gMax s.arg = true ∧ t = recordError .badarg s) ∨
    (s.mode = .idle ∧ cfgOperandBad s.gMax s.arg = false ∧
      t = { s with gdiv8 := argGdiv8 s.arg, thresh := argThresh s.arg }) := by
  rcases whenLegal_cases h with ⟨hl, h⟩ | ⟨hl, rfl⟩
  · have hm : s.mode = .idle := by simpa [legalIn] using hl
    split at h
    · cases h; exact .inr (.inl ⟨hm, ‹_›, rfl⟩)
    · cases h; exact .inr (.inr ⟨hm, by simp_all, rfl⟩)
  · exact .inl ⟨by simpa [legalIn] using hl, rfl⟩

theorem exec_abort_cases {s t : State} (h : exec .abort s = .next t) :
    t = { s with mode := .idle } := by
  cases h; rfl

theorem exec_clrerr_cases {s t : State} (h : exec .clrerr s = .next t) :
    t = { s with err := false, code := .none } := by
  cases h; rfl

theorem exec_encInit_cases {s t : State} (h : exec .encInit s = .next t) :
    (s.mode ≠ .idle ∧ t = recordError .mode s) ∨
    (s.mode = .idle ∧ t = { s with
      fsize := s.arg
      nblk := BitVec.ofNat 64 (blockCount s.arg.toNat s.blockSize)
      bidx := 0
      pos := 0
      spanoff := 8
      spanlen := BitVec.ofNat 64 (min (s.blockSize - 8) s.arg.toNat)
      done := false
      hdr := false
      extra := false
      inc := false
      mode := .enc }) := by
  rcases whenLegal_cases h with ⟨hl, h⟩ | ⟨hl, rfl⟩
  · cases h; exact .inr ⟨by simpa [legalIn] using hl, rfl⟩
  · exact .inl ⟨by simpa [legalIn] using hl, rfl⟩

theorem exec_encFrame_cases {s t : State} (h : exec .encFrame s = .next t) :
    (s.mode ≠ .enc ∧ t = recordError .mode s) ∨
    (s.mode = .enc ∧ s.nblk.toNat ≤ s.bidx.toNat ∧ t = recordError .seq s) ∨
    (s.mode = .enc ∧ s.bidx.toNat < s.nblk.toNat ∧ s.bidx.toNat + 1 = s.nblk.toNat ∧ t = { s with
      buf := framedBuf s
      pos := BitVec.ofNat 64 (s.pos.toNat + s.spanlen.toNat)
      bidx := BitVec.ofNat 64 (s.bidx.toNat + 1)
      done := true
      spanoff := 0
      spanlen := 0 }) ∨
    (s.mode = .enc ∧ s.bidx.toNat + 1 < s.nblk.toNat ∧ t = { s with
      buf := framedBuf s
      pos := BitVec.ofNat 64 (s.pos.toNat + s.spanlen.toNat)
      bidx := BitVec.ofNat 64 (s.bidx.toNat + 1)
      spanoff := 0
      spanlen := BitVec.ofNat 64
        (min s.blockSize (s.fsize.toNat - (s.pos.toNat + s.spanlen.toNat))) }) := by
  rcases whenLegal_cases h with ⟨hl, h⟩ | ⟨hl, rfl⟩
  · have hm : s.mode = .enc := by simpa [legalIn] using hl
    split at h
    · cases h; exact .inr (.inl ⟨hm, ‹_›, rfl⟩)
    · cases h
      by_cases hlast : s.bidx.toNat + 1 = s.nblk.toNat
      · exact .inr (.inr (.inl ⟨hm, by omega, hlast, by simp [hlast]⟩))
      · exact .inr (.inr (.inr ⟨hm, by omega, by simp [hlast]⟩))
  · exact .inl ⟨by simpa [legalIn] using hl, rfl⟩

theorem exec_encEnd_cases {s t : State} (h : exec .encEnd s = .next t) :
    (s.mode ≠ .enc ∧ t = recordError .mode s) ∨
    (s.mode = .enc ∧ s.bidx.toNat < s.nblk.toNat ∧
      t = { recordError .incompleteEnc s with inc := true, mode := .idle }) ∨
    (s.mode = .enc ∧ s.nblk.toNat ≤ s.bidx.toNat ∧ t = { s with mode := .idle }) := by
  rcases whenLegal_cases h with ⟨hl, h⟩ | ⟨hl, rfl⟩
  · have hm : s.mode = .enc := by simpa [legalIn] using hl
    split at h
    · cases h; exact .inr (.inl ⟨hm, ‹_›, by simp only [recordError_eq]⟩)
    · cases h; exact .inr (.inr ⟨hm, by omega, rfl⟩)
  · exact .inl ⟨by simpa [legalIn] using hl, rfl⟩

theorem exec_b2r_cases {s t : State} (h : exec .b2r s = .next t) :
    t = { s with
      ras := s.ras.writeRange 0 (s.grid * s.grid) fun i => px (bitAt s.buf.read i) } := by
  cases h; rfl

theorem exec_r2b_cases {s t : State} (h : exec .r2b s = .next t) :
    t = { s with
      buf := s.buf.writeRange 0 s.blockSize fun j => deser8 (thrBits s.thresh s.ras.read j) } := by
  cases h; rfl

theorem exec_decInit_cases {s t : State} (h : exec .decInit s = .next t) :
    (s.mode ≠ .idle ∧ t = recordError .mode s) ∨
    (s.mode = .idle ∧ t = { s with
      fsize := 0
      nblk := 0
      bidx := 0
      pos := 0
      spanoff := 0
      spanlen := 0
      done := false
      hdr := false
      extra := false
      inc := false
      mode := .dec }) := by
  rcases whenLegal_cases h with ⟨hl, h⟩ | ⟨hl, rfl⟩
  · cases h; exact .inr ⟨by simpa [legalIn] using hl, rfl⟩
  · exact .inl ⟨by simpa [legalIn] using hl, rfl⟩

theorem parsedBlock_header {s : State} (h : s.bidx = 0) :
    parsedBlock s = { s with
      fsize := BitVec.ofNat 64 (unbe64 s.buf.read)
      nblk := BitVec.ofNat 64 (blockCount (unbe64 s.buf.read) s.blockSize)
      hdr := true
      spanoff := 8
      spanlen := BitVec.ofNat 64 (min (s.blockSize - 8) (unbe64 s.buf.read)) } := by
  rw [parsedBlock, if_pos h]

theorem parsedBlock_data {s : State} (h : s.bidx ≠ 0) (hp : s.pos.toNat < s.fsize.toNat) :
    parsedBlock s = { s with
      spanoff := 0
      spanlen := BitVec.ofNat 64 (min s.blockSize (s.fsize.toNat - s.pos.toNat)) } := by
  rw [parsedBlock, if_neg h, if_pos hp]

theorem parsedBlock_extra {s : State} (h : s.bidx ≠ 0) (hp : s.fsize.toNat ≤ s.pos.toNat) :
    parsedBlock s = { s with spanoff := 0, spanlen := 0, extra := true } := by
  rw [parsedBlock, if_neg h, if_neg (by omega)]

/-- The three kinds of block `DEC_BLOCK` accepts are in `parsedBlock`; what follows is the same for all. -/
theorem exec_decBlock_cases {s t : State} (h : exec .decBlock s = .next t) :
    (s.mode ≠ .dec ∧ t = recordError .mode s) ∨
    (s.mode = .dec ∧ t = { parsedBlock s with
      pos := BitVec.ofNat 64 ((parsedBlock s).pos.toNat + (parsedBlock s).spanlen.toNat)
      bidx := BitVec.ofNat 64 (min ((parsedBlock s).bidx.toNat + 1) (2 ^ 64 - 1))
      done := decide ((parsedBlock s).pos.toNat + (parsedBlock s).spanlen.toNat
        = (parsedBlock s).fsize.toNat) }) := by
  rcases whenLegal_cases h with ⟨hl, h⟩ | ⟨hl, rfl⟩
  · cases h; exact .inr ⟨by simpa [legalIn] using hl, rfl⟩
  · exact .inl ⟨by simpa [legalIn] using hl, rfl⟩

theorem exec_decEnd_cases {s t : State} (h : exec .decEnd s = .next t) :
    (s.mode ≠ .dec ∧ t = recordError .mode s) ∨
    (s.mode = .dec ∧ (s.hdr = false ∨ s.pos.toNat < s.fsize.toNat) ∧
      t = { recordError .incompleteDec s with inc := true, mode := .idle }) ∨
    (s.mode = .dec ∧ s.hdr = true ∧ s.fsize.toNat ≤ s.pos.toNat ∧ t = { s with mode := .idle }) := by
  rcases whenLegal_cases h with ⟨hl, h⟩ | ⟨hl, rfl⟩
  · have hm : s.mode = .dec := by simpa [legalIn] using hl
    split at h
    · cases h; exact .inr (.inl ⟨hm, ‹_›, by simp only [recordError_eq]⟩)
    · rename_i hc
      cases h
      refine .inr (.inr ⟨hm, ?_, ?_, rfl⟩)
      · cases hh : s.hdr
        · exact absurd (.inl hh) hc
        · rfl
      · by_contra hlt
        exact hc (.inr (by omega))
  · exact .inl ⟨by simpa [legalIn] using hl, rfl⟩

/-- What a `BUF` write can do. -/
theorem exec_bufWr_cases {off : BitVec 20} {s t : State} (h : exec (.bufWr off) s = .next t) :
    (off.toNat < Config.bsMax s.gMax ∧
      t = { s with buf := s.buf.write off.toNat (s.wdata.extractLsb' 0 8) }) ∨
    (Config.bsMax s.gMax ≤ off.toNat ∧ t = recordError .bus s) := by
  change (if _ then _ else _) = _ at h
  split at h <;> cases h
  · exact .inl ⟨‹_›, rfl⟩
  · exact .inr ⟨by omega, rfl⟩

/-- What a `RAS` write can do. -/
theorem exec_rasWr_cases {off : BitVec 22} {s t : State} (h : exec (.rasWr off) s = .next t) :
    (off.toNat < Config.rasMax s.gMax ∧
      t = { s with ras := s.ras.write off.toNat (s.wdata.extractLsb' 0 8) }) ∨
    (Config.rasMax s.gMax ≤ off.toNat ∧ t = recordError .bus s) := by
  change (if _ then _ else _) = _ at h
  split at h <;> cases h
  · exact .inl ⟨‹_›, rfl⟩
  · exact .inr ⟨by omega, rfl⟩

/-- What a `BUF` read can do. -/
theorem exec_bufRd_cases {off : BitVec 20} {s t : State} (h : exec (.bufRd off) s = .next t) :
    (off.toNat < Config.bsMax s.gMax ∧
      t = { s with rdata := (s.buf.read off.toNat).setWidth 64 }) ∨
    (Config.bsMax s.gMax ≤ off.toNat ∧ t = { recordError .bus s with rdata := 0#64 }) := by
  change (if _ then _ else _) = _ at h
  split at h <;> cases h
  · exact .inl ⟨‹_›, rfl⟩
  · exact .inr ⟨by omega, rfl⟩

/-- What a `RAS` read can do. -/
theorem exec_rasRd_cases {off : BitVec 22} {s t : State} (h : exec (.rasRd off) s = .next t) :
    (off.toNat < Config.rasMax s.gMax ∧
      t = { s with rdata := (s.ras.read off.toNat).setWidth 64 }) ∨
    (Config.rasMax s.gMax ≤ off.toNat ∧ t = { recordError .bus s with rdata := 0#64 }) := by
  change (if _ then _ else _) = _ at h
  split at h <;> cases h
  · exact .inl ⟨‹_›, rfl⟩
  · exact .inr ⟨by omega, rfl⟩

/-- What a register write other than to `CMD` can do. -/
theorem exec_regWr_cases {r : Reg} (hr : r ≠ .cmd) {s t : State}
    (h : exec (.regWr r) s = .next t) :
    (r = .arg ∧ t = { s with arg := s.wdata }) ∨ (r ≠ .arg ∧ t = recordError .bus s) := by
  cases r <;> first | exact absurd rfl hr | (cases h; simp [busErrorWrite])

/-- A claim about every instruction follows from the claim about every command and every host operation but
a `CMD` write, and about the rejection of an illegal command word. -/
theorem exec_induction {P : Instr → State → State → Prop} {i : Instr} {s t : State}
    (h : exec i s = .next t)
    (command : ∀ c, encodeWidth c = 64 → exec c s = .next t → P c s t)
    (hostOp : encodeWidth i = 32 → i ≠ .regWr .cmd → P i s t)
    (illegal : i = .regWr .cmd → t = recordError .illegal s → P i s t) :
    P (performed i s) s t := by
  by_cases hi : i = .regWr .cmd
  · subst hi
    rcases exec_regWr_cmd_cases h with ⟨c, -, hp, hw, hx⟩ | ⟨-, hp, ht⟩
    · rw [hp]; exact command c hw hx
    · rw [hp]; exact illegal rfl ht
  · rw [performed_of_ne hi]
    by_cases hw : encodeWidth i = 64
    · exact command i hw h
    · exact hostOp (by cases i <;> simp_all [encodeWidth]) hi

end Sys2Proof.Machine
end

