-- ==== Sys2Proof/Laws/PerInstr.lean ====
section
/-! SUPPORT. Statements made of every instruction, one lemma per constructor. `EncodeFits`: an instruction's
word fits the width of its format (R100, R110). -/

namespace Sys2Proof.Laws.EncodeFits

/-- The word of `i` has no bit at or above the width of its format. -/
def Statement (i : Instr) : Prop := (encode i).2 < 2 ^ (encode i).1

/-- A command's word is its opcode. -/
theorem of_command {i : Instr} (h : encodeWidth i = 64) : Statement i := by
  cases i <;> simp [Statement, encode, encodeWord, encodeWidth] at h ⊢

/-- A host operation's word is its descriptor. -/
theorem of_hostOp {i : Instr} (h : encodeWidth i = 32) : Statement i := by
  cases i with
  | regRd r | regWr r => cases r <;> simp [Statement, encode, encodeWord, encodeWidth, Reg.offset]
  | bufRd off | bufWr off | rasRd off | rasWr off =>
    have := off.isLt
    simp only [Statement, encode, encodeWord, encodeWidth, Config.bufBase, Config.rasBase]
    omega
  | _ => simp [encodeWidth] at h

theorem nop : Statement .nop := of_command rfl
theorem cfg : Statement .cfg := of_command rfl
theorem encInit : Statement .encInit := of_command rfl
theorem encFrame : Statement .encFrame := of_command rfl
theorem encEnd : Statement .encEnd := of_command rfl
theorem b2r : Statement .b2r := of_command rfl
theorem r2b : Statement .r2b := of_command rfl
theorem decInit : Statement .decInit := of_command rfl
theorem decBlock : Statement .decBlock := of_command rfl
theorem decEnd : Statement .decEnd := of_command rfl
theorem abort : Statement .abort := of_command rfl
theorem clrerr : Statement .clrerr := of_command rfl
theorem regRd (r : Reg) : Statement (.regRd r) := of_hostOp rfl
theorem regWr (r : Reg) : Statement (.regWr r) := of_hostOp rfl
theorem bufRd (off : BitVec 20) : Statement (.bufRd off) := of_hostOp rfl
theorem bufWr (off : BitVec 20) : Statement (.bufWr off) := of_hostOp rfl
theorem rasRd (off : BitVec 22) : Statement (.rasRd off) := of_hostOp rfl
theorem rasWr (off : BitVec 22) : Statement (.rasWr off) := of_hostOp rfl

end Sys2Proof.Laws.EncodeFits
end

