-- ==== Sys2Proof/Tests/Slice0.lean ====
section
/-! SUPPORT. The model's own tests: the checks of WellFormed, decoding of words written out from the spec,
one step of each instruction on values of 95_test_vectors.md (V1 to V28, P1 to P4), and for each
statement with hypotheses a state and operands that meet them. -/

namespace Sys2Proof.Tests

open Sys2Proof Sys2Proof.Machine

/-! ### Helpers -/

/-- The state of a result; every result of this machine has one. -/
def after : Result → State
  | .next t => t
  | _ => State.reset

/-- One step from `s` with the instruction of these bits as the host's access. -/
def stepWord (nbits w : Nat) (s : State) : State := after (step (s.withFetchWord nbits w))

/-- The reset state at `G` = 8. -/
def small : State := { State.reset with gdiv8 := 1 }

/-- An encode session of "ABC" at `G` = 8, after `ENC_INIT 3`. -/
def encStart : State :=
  { small with
    mode := .enc, arg := 3, fsize := 3, nblk := 2, bidx := 0, pos := 0, spanoff := 8, spanlen := 0 }

/-- The same session with its header framed and the payload written into the span. -/
def encMid : State :=
  { encStart with
    bidx := 1, spanoff := 0, spanlen := 3, buf := [(0, 0x41), (1, 0x42), (2, 0x43), (7, 3)] }

/-- The same session with every block framed. -/
def encFull : State := { encMid with bidx := 2, pos := 3, spanlen := 0, done := true }

/-- A decode session at `G` = 8 with the header block of "ABC" in `BUF`. -/
def decStart : State := { small with mode := .dec, buf := [(7, 3)] }

/-- The same session with its header parsed and the data block in `BUF`. -/
def decMid : State :=
  { small with
    mode := .dec, hdr := true, fsize := 3, nblk := 2, bidx := 1, pos := 0, spanoff := 8
    buf := [(0, 0x41), (1, 0x42), (2, 0x43)] }

/-- The same session with the payload delivered. -/
def decFull : State := { decMid with bidx := 2, pos := 3, spanoff := 0, spanlen := 3, done := true }

/-- A decode session whose block count has saturated. -/
def decSaturated : State :=
  { decFull with bidx := BitVec.allOnes 64, spanlen := 0, extra := true }

/-- The decode session before its data block, with the raster `encMid`'s block maps to in `RAS`. -/
def decReceived : State :=
  { decMid with buf := [(7, 3)], ras := (after (exec .b2r (after (exec .encFrame encMid)))).ras }

/-- A state with an error latched. -/
def latched (c : ErrCode) (s : State) : State := { s with err := true, code := c }

/-- A state with an access pending. -/
def pending (d : Desc) (w : Word) (s : State) : State := { s with inputs := [.access ⟨d, w⟩] }

/-! ### Well-formedness: one ill-formed term for each check -/

theorem test_bufRd_beyond_buffer : Instr.wellFormed 64 (.bufRd 0x200) = false := by decide
theorem test_bufWr_beyond_buffer : Instr.wellFormed 64 (.bufWr 0x200) = false := by decide
theorem test_rasRd_beyond_buffer : Instr.wellFormed 64 (.rasRd 0x1000) = false := by decide
theorem test_rasWr_beyond_buffer : Instr.wellFormed 64 (.rasWr 0x1000) = false := by decide
theorem test_last_bytes_well_formed :
    Instr.wellFormed 64 (.bufRd 0x1FF) = true ∧ Instr.wellFormed 64 (.rasWr 0xFFF) = true ∧
    Instr.wellFormed 2040 (.bufRd 0x7F007) = true ∧ Instr.wellFormed 2040 (.rasWr 0x3F803F) = true ∧
    Instr.wellFormed 2040 (.rasWr 0x3F8040) = false := by decide

/-! ### Decoding: words from R106, R110 and V25 -/

theorem test_decode_commands :
    [0x00, 0x01, 0x02, 0x03, 0x04, 0x05, 0x06, 0x07, 0x08, 0x09, 0x0A, 0x0B].map (decodeTableWord 64) =
      [some .nop, some .cfg, some .encInit, some .encFrame, some .encEnd, some .b2r, some .r2b,
        some .decInit, some .decBlock, some .decEnd, some .abort, some .clrerr] := by decide

/-- V11, V21, V24, and the bits just above `OP` and at the top of the word. -/
theorem test_reject_commands :
    [0x105, 0x100000000, 0x0C, 0x80, 0xFF, 0x8000000000000000].map (decodeTableWord 64) =
      [none, none, none, none, none, none] := by decide

/-- `W` = 0, `SZ` = 3 and the offset of each register of R71, in order. -/
theorem test_decode_register_reads :
    [0x30000000, 0x30000008, 0x30000010, 0x30000018, 0x30000020, 0x30000028, 0x30000030,
      0x30000038, 0x30000040, 0x30000048, 0x30000050, 0x30000058, 0x30000060,
      0x30000068].map (decodeTableWord 32) =
      ([.id, .cap, .cfg, .status, .err, .arg, .cmd, .fsize, .nblk, .bidx, .pos, .spanoff, .spanlen,
        .bsize] : List Reg).map (fun r => some (.regRd r)) := by decide

/-- `W` = 1, `SZ` = 3, offset 0x28, 0x30 and 0x18. -/
theorem test_decode_register_writes :
    decodeTableWord 32 0b10110000000000000000000000101000 = some (.regWr .arg) ∧
    decodeTableWord 32 0b10110000000000000000000000110000 = some (.regWr .cmd) ∧
    decodeTableWord 32 0b10110000000000000000000000011000 = some (.regWr .status) := by decide

/-- V25: the window accesses at both ends of each buffer. -/
theorem test_decode_windows :
    decodeTableWord 32 0b00000000000100000000000000000000 = some (.bufRd 0) ∧
    decodeTableWord 32 0x001001FF = some (.bufRd 0x1FF) ∧
    decodeTableWord 32 0b10000000000100000000000111111111 = some (.bufWr 0x1FF) ∧
    decodeTableWord 32 0b00000000010000000000111111111111 = some (.rasRd 0xFFF) ∧
    decodeTableWord 32 0x80400038 = some (.rasWr 0x38) := by decide

/-- V25: the bus errors. -/
theorem test_reject_descriptors :
    [0x30000070, 0x30000004, 0x20000018, 0x00100200, 0x10100000, 0x00401000, 0x00200000,
      0x00800000, 0x40100000].map (decodeTableWord 32) =
      [none, none, none, none, none, none, none, none, none] := by decide

theorem test_encode_words :
    encode .clrerr = (64, 0x0B) ∧ encode (.regRd .bsize) = (32, 0x30000068) ∧
    encode (.regWr .cmd) = (32, 0xB0000030) ∧ encode (.bufWr 0x1FF) = (32, 0x801001FF) ∧
    encode (.rasRd 0xFFF) = (32, 0x00400FFF) := by decide

/-! ### Buffers -/

theorem test_write_keeps_form :
    Memory.write [(1, 5), (4, 7)] 2 9 = [(1, 5), (2, 9), (4, 7)] ∧
    Memory.write [(1, 5), (4, 7)] 4 0 = [(1, 5)] ∧
    Memory.read [(1, 5), (4, 7)] 4 = 7 ∧ Memory.read [(1, 5), (4, 7)] 3 = 0 := by decide

/-! ### One step of each instruction -/

/-- V21. -/
theorem test_nop_changes_nothing : { stepWord 64 0x00 encMid with wdata := 0 } = encMid := by decide
theorem test_nop_with_rsv_is_illegal :
    (stepWord 64 0x100000000 encMid).code = .illegal ∧
    (stepWord 64 0x100000000 encMid).bidx = 1 := by decide

/-- V19. -/
theorem test_cfg_accepted :
    readReg (stepWord 64 0x01 { State.reset with arg := 0x8002 }) .cfg = 0x8002 ∧
    readReg (stepWord 64 0x01 { State.reset with arg := 0x8002 }) .bsize = 0x20 := by decide
/-- V19, V20. -/
theorem test_cfg_rejected :
    (stepWord 64 0x01 { State.reset with arg := 0x7F09 }).code = .badarg ∧
    readReg (stepWord 64 0x01 { State.reset with arg := 0xFF08 }) .cfg = 0x7F08 ∧
    (stepWord 64 0x01 { encMid with arg := 0xFF08 }).code = .mode := by decide

/-- V1, `F` = 505 at `bs` = 512. -/
theorem test_encInit_505 :
    (stepWord 64 0x02 { State.reset with arg := 505 }).nblk = 2 ∧
    (stepWord 64 0x02 { State.reset with arg := 505 }).spanlen = 504 ∧
    readReg (stepWord 64 0x02 { State.reset with arg := 505 }) .status = 0x100 := by decide
/-- V1, `F` = 2^64 − 1 at `bs` = 8. -/
theorem test_encInit_largest :
    (stepWord 64 0x02 { small with arg := 0xFFFFFFFFFFFFFFFF }).nblk = 0x2000000000000001 ∧
    (stepWord 64 0x02 { small with arg := 0xFFFFFFFFFFFFFFFF }).spanlen = 0 := by decide

/-- P1, lines 3 and 7. -/
theorem test_encFrame_header_and_padding :
    (stepWord 64 0x03 { encStart with buf := [(0, 9), (3, 9)] }).buf = [(7, 3)] ∧
    (stepWord 64 0x03 encStart).spanlen = 3 ∧
    (stepWord 64 0x03 encMid).buf = [(0, 0x41), (1, 0x42), (2, 0x43)] ∧
    (stepWord 64 0x03 encMid).pos = 3 ∧ (stepWord 64 0x03 encMid).done = true := by decide
/-- V3. -/
theorem test_encFrame_seq :
    (stepWord 64 0x03 encFull).code = .seq ∧ (stepWord 64 0x03 encFull).bidx = 2 := by decide

/-- V4. -/
theorem test_encEnd_incomplete :
    readReg (stepWord 64 0x04 encStart) .status = 0x011 ∧
    readReg (stepWord 64 0x04 encStart) .err = 0x06 ∧ (stepWord 64 0x04 encStart).nblk = 2 := by
  decide
/-- V4. -/
theorem test_encEnd_complete : readReg (stepWord 64 0x04 encFull) .status = 0x002 := by decide

/-- V8: rows 4 to 7. -/
theorem test_b2r_rows :
    (List.range 32).map (fun k => ((stepWord 64 0x05 { small with
      buf := [(1, 0xFF), (2, 0x80), (3, 0x01), (4, 0xA5), (5, 0x5A), (6, 0xF9), (7, 0x41)]
      }).ras.read (32 + k)).toNat) =
    [255, 0, 255, 0, 0, 255, 0, 255, 0, 255, 0, 255, 255, 0, 255, 0,
      255, 255, 255, 255, 255, 0, 0, 255, 0, 255, 0, 0, 0, 0, 0, 255] := by decide

/-- V10: the first and the third row. -/
theorem test_r2b_thresholds :
    (stepWord 64 0x06 { small with
      ras := [(0, 127), (1, 128), (3, 255), (4, 127), (5, 128), (6, 128), (7, 127)]
      }).buf = [(0, 0x56)] ∧
    (stepWord 64 0x06 { small with
      thresh := 254
      ras := [(0, 254), (1, 255), (3, 255), (4, 254), (5, 255), (6, 128), (7, 127)]
      }).buf = [(0, 0x54)] := by decide

/-- V12. -/
theorem test_decInit : readReg (stepWord 64 0x07 State.reset) .status = 0x200 := by decide

/-- V14, `F` = 505 at `bs` = 512. -/
theorem test_decBlock_header :
    let t := stepWord 64 0x08 { State.reset with mode := .dec, buf := [(6, 0x01), (7, 0xF9)] }
    t.fsize = 505 ∧ t.nblk = 2 ∧ t.spanoff = 8 ∧ t.spanlen = 504 ∧ t.pos = 504 ∧ t.bidx = 1 ∧
      readReg t .status = 0x204 := by decide
/-- P2, line 22, and a block beyond the payload (V14). -/
theorem test_decBlock_data_and_extra :
    (stepWord 64 0x08 decMid).spanlen = 3 ∧ (stepWord 64 0x08 decMid).spanoff = 0 ∧
    readReg (stepWord 64 0x08 decMid) .status = 0x206 ∧
    readReg (stepWord 64 0x08 decFull) .status = 0x20E ∧
    (stepWord 64 0x08 decFull).spanlen = 0 := by decide

/-- V15, and P3 line 26: a header seen and payload missing. -/
theorem test_decEnd_incomplete :
    readReg (stepWord 64 0x09 decStart) .status = 0x011 ∧
    readReg (stepWord 64 0x09 decMid) .status = 0x015 ∧
    readReg (stepWord 64 0x09 decMid) .err = 0x05 := by decide
/-- P2, line 25, and V28. -/
theorem test_decEnd_complete_and_latched :
    readReg (stepWord 64 0x09 decFull) .status = 0x006 ∧
    (stepWord 64 0x09 (latched .bus decMid)).inc = true ∧
    (stepWord 64 0x09 (latched .bus decMid)).code = .bus := by decide

/-- V22. -/
theorem test_abort :
    (stepWord 64 0x0A encMid).mode = .idle ∧ (stepWord 64 0x0A encMid).bidx = 1 ∧
    (stepWord 64 0x0A encMid).inc = false := by decide

/-- V23. -/
theorem test_clrerr :
    readReg (stepWord 64 0x0B (latched .mode { State.reset with inc := true })) .err = 0 ∧
    readReg (stepWord 64 0x0B (latched .mode { State.reset with inc := true })) .status = 0x010 := by
  decide

/-- V25: `ID`, `CAP`, `BSIZE`, `CMD`. -/
theorem test_regRd :
    [0x30000000, 0x30000008, 0x30000068, 0x30000030].map
      (fun w => (stepWord 32 w State.reset).rdata.toNat) = [0x42535201, 0x40, 0x200, 0] := by decide
/-- V25: a misaligned read returns 0 and records `BUS`. -/
theorem test_regRd_misaligned :
    (stepWord 32 0x30000004 { State.reset with rdata := 7 }).rdata = 0 ∧
    readReg (stepWord 32 0x30000004 State.reset) .err = 0x07 := by decide

/-- V25, V26. -/
theorem test_regWr :
    (after (step (pending 0xB0000028 0x7F01 State.reset))).arg = 0x7F01 ∧
    (after (step (pending 0xB0000038 5 State.reset))).fsize = 0 ∧
    readReg (after (step (pending 0xB0000038 5 State.reset))) .err = 0x07 := by decide
/-- V27: `ILLEGAL` before `MODE`. -/
theorem test_regWr_cmd_priority :
    (after (step (pending 0xB0000030 0x101 encMid))).code = .illegal := by decide

/-- V25, P2 line 23. -/
theorem test_bufRd :
    (stepWord 32 0x00100002 decMid).rdata = 0x43 ∧ (stepWord 32 0x00100200 decMid).code = .bus := by
  decide
/-- V25: data bits above [7:0] are ignored (R110). -/
theorem test_bufWr :
    (after (step (pending 0x801001FF 0x1234 State.reset))).buf = [(0x1FF, 0x34)] := by decide
/-- V25. -/
theorem test_rasRd :
    (stepWord 32 0x00400FFF { State.reset with ras := [(0xFFF, 200)] }).rdata = 200 ∧
    (stepWord 32 0x00401000 State.reset).code = .bus := by decide
/-- P2, line 10: `WROW 7` at `G` = 8 starts at 0x400038. -/
theorem test_rasWr :
    (after (step (pending 0x80400038 131 State.reset))).ras = [(56, 131)] := by decide

/-- R57, R270: a reset in an open session with an error latched, and a draw of one byte. -/
theorem test_platform_reset :
    let t := after (step { latched .bus encMid with inputs := [.reset [0, 9] []] })
    readReg t .status = 0 ∧ readReg t .cfg = 0x7F08 ∧ t.nblk = 0 ∧ t.buf = [(1, 9)] := by decide

/-- Every command runs as the first instruction after reset. -/
theorem test_commands_run_from_reset :
    ∀ w ∈ [0x00, 0x01, 0x02, 0x03, 0x04, 0x07, 0x08, 0x09, 0x0A, 0x0B],
      ∀ i, decodeTableWord 64 w = some i →
        stepWord 64 w State.reset = after (exec i { State.reset with wdata := BitVec.ofNat 64 w }) := by
  decide

/-! ### Witnesses: the invariants -/

theorem inv_encStart : Inv encStart := by
  constructor <;> first | decide | (intro _; constructor <;> decide) | (intro h; cases h)
theorem inv_encMid : Inv encMid := by
  constructor <;> first | decide | (intro _; constructor <;> decide) | (intro h; cases h)
theorem inv_encFull : Inv encFull := by
  constructor <;> first | decide | (intro _; constructor <;> decide) | (intro h; cases h)
theorem inv_small : Inv small := by
  constructor <;> first | decide | (intro h; cases h)
theorem inv_decStart : Inv decStart := by
  constructor <;> first | decide | (intro _ _; constructor <;> decide) | (intro h; exact absurd h (by decide)) |
    (intro _ h; exact absurd h (by decide))
theorem inv_decMid : Inv decMid := by
  constructor <;> first | decide | (intro _ _; constructor <;> decide) | (intro h; exact absurd h (by decide)) |
    (intro _ h; exact absurd h (by decide))
theorem inv_decFull : Inv decFull := by
  constructor <;> first | decide | (intro _ _; constructor <;> decide) | (intro h; exact absurd h (by decide)) |
    (intro _ h; exact absurd h (by decide))
theorem inv_decSaturated : Inv decSaturated := by
  constructor <;> first | decide | (intro _ _; constructor <;> decide) | (intro h; exact absurd h (by decide)) |
    (intro _ h; exact absurd h (by decide))

theorem inv_decReceived : Inv decReceived := by
  constructor <;> first | decide | (intro _ _; constructor <;> decide) | (intro h; exact absurd h (by decide)) |
    (intro _ h; exact absurd h (by decide))

theorem flags_encMid : SessionFlags encMid := by constructor <;> decide
theorem flags_decStart : SessionFlags decStart := by constructor <;> decide
theorem flags_decMid : SessionFlags decMid := by constructor <;> decide
theorem flags_decFull : SessionFlags decFull := by constructor <;> decide
theorem flags_decSaturated : SessionFlags decSaturated := by constructor <;> decide

/-! ### Witnesses: the hypotheses of each statement, met together

The name after `witness_` is the statement's. A clause that is one input's range has its boundary values. -/

/-- A mode outside each row's, and a command in its own mode that records an error of its own. -/
theorem witness_WrongModeRecordsModeAndNothingElse :
    encStart.mode ≠ .idle ∧ decStart.mode ≠ .enc ∧ encStart.mode ≠ .dec ∧
    ∃ t, Instr.encFrame ∈ ([.encFrame, .encEnd] : List Instr) ∧ encFull.mode = .enc ∧
      encFull.err = false ∧ exec .encFrame encFull = .next t ∧ t.err = true :=
  ⟨by decide, by decide, by decide, _, by decide, rfl, rfl, rfl, rfl⟩

/-- The lowest reserved bit alone, the highest alone, and the lowest unassigned opcode alone. -/
theorem witness_IllegalCommandWordsRecordIllegalOnly :
    ({ State.reset with wdata := 0x100 } : State).wdata.toNat / 256 ≠ 0 ∧
    ({ State.reset with wdata := 0x8000000000000000 } : State).wdata.toNat / 256 ≠ 0 ∧
    0x0C ≤ ({ State.reset with wdata := 0x0C } : State).wdata.toNat % 256 := by decide

/-- The least and the greatest legal build; no descriptor meets two of the three kinds of access. -/
theorem witness_AccessesAreClassifiedByTheirFields :
    Config.LegalGMax 64 ∧ Config.LegalGMax 2040 ∧
    decodeAccess 64 0x30000068 = .ok (.regRd .bsize) ∧
    decodeAccess 2040 0x0017F007 = .ok (.bufRd 0x7F007) ∧
    decodeAccess 2040 0x0017F008 = .error .busError ∧
    decodeAccess 2040 0x807F803F = .ok (.rasWr 0x3F803F) ∧
    decodeAccess 2040 0x807F8040 = .error .busError := by
  refine ⟨by decide, by decide, ?_, ?_, ?_, ?_, ?_⟩ <;> rfl

theorem witness_DecodeOfEncodeIsTheInstruction :
    Config.LegalGMax 2040 ∧ Instr.wellFormed 2040 (.bufWr 0x7F007) = true ∧
    Instr.wellFormed 2040 (.rasRd 0x3F803F) = true ∧ Instr.wellFormed 2040 .encInit = true := by decide

theorem witness_EncodeOfDecodeIsTheWord :
    decodeBits 2040 32 0x807F803F = some (.rasWr 0x3F803F) ∧
    decodeBits 64 64 0x0B = some .clrerr := by decide

theorem witness_StepRunsTheDecodedAccess :
    (pending 0x801001FF 7 encMid).inputs = [.access ⟨0x801001FF, 7⟩] ∧
    decodeAccess (pending 0x801001FF 7 encMid).gMax 0x801001FF = .ok (.bufWr 0x1FF) := ⟨rfl, rfl⟩

theorem witness_StepRunsTheCommandWritten :
    (pending 0xB0000030 3 encMid).inputs = [.access ⟨0xB0000030, 3⟩] ∧
    decodeCommand 3 = .ok .encFrame := ⟨rfl, rfl⟩

/-- A read and a write outside every window, and a write to the read-only registers next to `ARG` and
`CMD`. -/
theorem witness_BusErrorsRecordBusAndNothingElse :
    Config.LegalGMax encMid.gMax ∧
    (BusErrorAccess 64 0x30000070 ∧ wField 0x30000070 = false) ∧
    (BusErrorAccess 64 0x80100200 ∧ wField 0x80100200 = true) ∧
    (BusErrorAccess 64 0xB0000020 ∧ wField 0xB0000020 = true) ∧
    (BusErrorAccess 64 0xB0000038 ∧ wField 0xB0000038 = true) ∧
    ¬ BusErrorAccess 64 0xB0000028 ∧ ¬ BusErrorAccess 64 0xB0000030 := by
  refine ⟨by decide, ⟨?_, rfl⟩, ⟨?_, rfl⟩, ⟨?_, rfl⟩, ⟨?_, rfl⟩, ?_, ?_⟩ <;>
    (simp only [BusErrorAccess, RegisterAccess, BufAccess, RasAccess, ReadOnlyWrite]; decide)

theorem witness_StepWithoutInputChangesNothing : encMid.inputs = [] := rfl

theorem witness_IdAndCapAreConstants :
    Inv encMid ∧ ∃ t, step { encMid with inputs := [.reset [] []] } = .next t :=
  ⟨inv_encMid, _, rfl⟩

/-- The extreme legal operands at `G_MAX` = 64. -/
theorem witness_BsizeReadsTheBlockSize :
    State.reset.mode = .idle ∧ cfgOperandBad State.reset.gMax 0x0001 = false ∧
    cfgOperandBad State.reset.gMax 0xFE08 = false := by decide

theorem witness_RegisterWritesStoreExecuteOrRecordBus :
    decodeCommand 0x0B = .ok .clrerr ∧ decodeCommand 0x0C = .error .unassignedOp ∧
    Reg.cfg ≠ .arg ∧ Reg.cfg ≠ .cmd := ⟨rfl, rfl, by decide, by decide⟩

theorem witness_BufWindowReadsAndWritesOneByte :
    Config.LegalGMax 64 ∧ BufAccess 64 0x00100000 ∧ BufAccess 64 0x801001FF ∧
    (0x1FF#20).toNat < Config.bsMax encMid.gMax := by
  simp only [BufAccess]; decide

theorem witness_RasWindowReadsAndWritesOneCell :
    Config.LegalGMax 64 ∧ RasAccess 64 0x00400000 ∧ RasAccess 64 0x80400FFF ∧
    Inv encMid ∧ 7 < encMid.grid ∧ (szField 0x0040003F).toNat = 0 ∧ (htRsvField 0x0040003F).toNat = 0 ∧
    (addrField 0x0040003F).toNat = 0x400000 + 7 * encMid.grid + 7 ∧
    (0xFFF#22).toNat < Config.rasMax encMid.gMax := by
  refine ⟨by decide, ?_, ?_, inv_encMid, by decide, by decide, by decide, by decide, by decide⟩ <;>
    (simp only [RasAccess]; decide)

theorem witness_ReadsHaveNoSideEffectsAndWritesRepeat :
    Instr.wellFormed encMid.gMax (.rasRd 0xFFF) = true ∧ encMid.buf.wf ∧ encMid.ras.wf ∧
    decodeCommand ({ encMid with wdata := 3 } : State).wdata = .ok .encFrame ∧
    wField 0x10100000 = false ∧
    decodeAccess (pending 0x10100000 0 encMid).gMax 0x10100000 = .error .busError :=
  ⟨by decide, by decide, by decide, rfl, by decide, rfl⟩

theorem witness_RecordErrorKeepsTheFirst :
    encMid.err = false ∧ (latched .bus encMid).err = true := ⟨rfl, rfl⟩

theorem witness_LatchedErrorDoesNotChangeExecution :
    ∃ t, exec .encEnd (latched .bus encMid) = .next t ∧ t.code = .bus := ⟨_, rfl, rfl⟩

/-- Each of the three ways the latch of an error goes on. -/
theorem witness_OnlyClrerrOrResetClearsTheLatch :
    (latched .bus encMid).err = true ∧
    (∃ t, step (pending 0xB0000030 0xFF (latched .bus encMid)) = .next t ∧ t.code = .bus) ∧
    (∃ t, step (pending 0xB0000030 0x0B (latched .bus encMid)) = .next t ∧ t.err = false) ∧
    ∃ t, step { latched .bus encMid with inputs := [.reset [] []] } = .next t ∧ t.err = false :=
  ⟨rfl, ⟨_, rfl, rfl⟩, ⟨_, rfl, rfl⟩, ⟨_, rfl, rfl⟩⟩

/-- Each code is recorded by some instruction. -/
theorem witness_ErrorCodesComeFromTheirCauses :
    encMid.err = false ∧
    (∃ t, exec (.regWr .cmd) { encMid with wdata := 0x0C } = .next t ∧ t.code = .illegal) ∧
    (∃ t, exec .cfg encMid = .next t ∧ t.code = .mode) ∧
    (∃ t, exec .cfg { State.reset with arg := 0x7F09 } = .next t ∧ t.code = .badarg) ∧
    (∃ t, exec .encFrame encFull = .next t ∧ t.code = .seq) ∧
    (∃ t, exec .decEnd decMid = .next t ∧ t.code = .incompleteDec) ∧
    (∃ t, exec .encEnd encMid = .next t ∧ t.code = .incompleteEnc) ∧
    ∃ t, exec (.bufRd 0x200) encMid = .next t ∧ t.code = .bus :=
  ⟨rfl, ⟨_, rfl, rfl⟩, ⟨_, rfl, rfl⟩, ⟨_, rfl, rfl⟩, ⟨_, rfl, rfl⟩, ⟨_, rfl, rfl⟩, ⟨_, rfl, rfl⟩,
    ⟨_, rfl, rfl⟩⟩

/-- V27, and a 4-byte write to `CMD`. -/
theorem witness_OnlyTheFirstFailingCheckIsRecorded :
    ({ encMid with wdata := 0x101 } : State).wdata.toNat / 256 ≠ 0 ∧
    0x0C ≤ ({ encMid with wdata := 0x0C } : State).wdata.toNat % 256 ∧
    encMid.mode ≠ .idle ∧ cfgOperandBad encMid.gMax ({ encMid with arg := 0xFF08 } : State).arg = true ∧
    decFull.mode ≠ .enc ∧ decFull.nblk.toNat ≤ decFull.bidx.toNat ∧
    Config.LegalGMax (pending 0xA0000030 3 encMid).gMax ∧ wField 0xA0000030 = true ∧
    (addrField 0xA0000030).toNat = 0x30 ∧ (szField 0xA0000030).toNat ≠ 3 := by decide

theorem witness_IncompleteSessionsCompleteWithInc :
    encMid.mode = .enc ∧ encMid.bidx.toNat < encMid.nblk.toNat ∧
    decStart.mode = .dec ∧ decStart.hdr = false ∧
    decMid.mode = .dec ∧ decMid.pos.toNat < decMid.fsize.toNat ∧ small.mode = .idle := by decide

/-- Each opcode alone, and with the lowest reserved bit set: the two cases of every `EncodedAs`. -/
theorem witness_EncodedAs :
    ∀ op < 12, (BitVec.ofNat 64 op).toNat % 256 = op ∧ (BitVec.ofNat 64 op).toNat / 256 = 0 ∧
      (BitVec.ofNat 64 (op + 256)).toNat % 256 = op ∧
      (BitVec.ofNat 64 (op + 256)).toNat / 256 ≠ 0 := by decide

/-- Each of the four range checks alone, and the extreme legal operands (V19). -/
theorem witness_CfgSetsGridAndThreshold :
    State.reset.mode = .idle ∧ encMid.mode ≠ .idle ∧
    (0x17F08#64).toNat / 65536 ≠ 0 ∧ (0x7F00#64).toNat % 256 = 0 ∧
    State.reset.gMax / 8 < (0x7F09#64).toNat % 256 ∧ (0xFF08#64).toNat / 256 % 256 = 255 ∧
    cfgOperandBad State.reset.gMax 0x0001 = false ∧ cfgOperandBad State.reset.gMax 0xFE08 = false := by
  decide

theorem witness_AbortOnlyClosesTheSession : small.mode = .idle := rfl

theorem witness_ClrerrOnlyClearsTheLatch :
    (Inv encMid ∧ encMid.err = false) ∧
    ({ latched .bus encMid with wdata := 0x10B } : State).wdata.toNat % 256 = 0x0B ∧
    ({ latched .bus encMid with wdata := 0x10B } : State).wdata.toNat / 256 ≠ 0 ∧
    (latched .bus encMid).err = true := ⟨⟨inv_encMid, rfl⟩, by decide, by decide, rfl⟩

/-- `F` = 0 and `F` = 2^64 − 1, at `bs` = 512 and at `bs` = 8. -/
theorem witness_EncInitOpensAnEncodeSession :
    State.reset.mode = .idle ∧ 1 ≤ State.reset.gdiv8.toNat ∧ State.reset.arg = 0 ∧
    State.reset.blockSize = 512 ∧ small.mode = .idle ∧ 1 ≤ small.gdiv8.toNat ∧ small.blockSize = 8 ∧
    ({ small with arg := 0xFFFFFFFFFFFFFFFF } : State).arg = BitVec.allOnes 64 ∧
    encMid.mode ≠ .idle := by decide

/-- The header block, the last block, and every block framed. -/
theorem witness_EncFrameWritesHeaderAndPadding :
    (Inv encStart ∧ encStart.mode = .enc ∧ encStart.bidx.toNat < encStart.nblk.toNat ∧
      encStart.bidx = 0) ∧
    (Inv encMid ∧ encMid.bidx.toNat < encMid.nblk.toNat ∧ encMid.bidx ≠ 0) ∧
    encFull.mode = .enc ∧ encFull.nblk.toNat ≤ encFull.bidx.toNat ∧ decMid.mode ≠ .enc :=
  ⟨⟨inv_encStart, by decide⟩, ⟨inv_encMid, by decide⟩, by decide⟩

theorem witness_EncEndClosesTheEncodeSession :
    encMid.mode = .enc ∧ encMid.bidx.toNat < encMid.nblk.toNat ∧ encFull.mode = .enc ∧
    encFull.nblk.toNat ≤ encFull.bidx.toNat ∧ small.mode = .idle ∧ 1 ≤ small.gdiv8.toNat ∧
    decMid.mode ≠ .enc := by decide

/-- The boundary of §8 item 7 at `bs` = 512, and the smallest block. -/
theorem witness_DocumentBlockCountIsTheHardwares :
    504 ≤ 512 - 8 ∧ 512 - 8 < 505 ∧ 0 ≤ 8 - 8 ∧ 8 - 8 < 1 ∧
    blockCount 504 512 = 1 ∧ blockCount 505 512 = 2 ∧ blockCount 1016 512 = 2 ∧
    blockCount 1017 512 = 3 := by decide

theorem witness_EncFrameEndsWithThePayload :
    (Inv encMid ∧ encMid.mode = .enc ∧ 1 ≤ encMid.bidx.toNat) ∧
    (Inv encFull ∧ encFull.mode = .enc ∧ encFull.pos = encFull.fsize) :=
  ⟨⟨inv_encMid, by decide⟩, inv_encFull, by decide⟩

/-- "ABC" at `G` = 8 (P1): the header block and the data block. -/
theorem witness_EncFrameProducesTheDocumentsBlock :
    let p : Nat → Byte := fun k => [0x41, 0x42, 0x43].getD k 0
    (Inv encStart ∧ encStart.mode = .enc ∧ encStart.bidx.toNat < encStart.nblk.toNat ∧
      SpanHolds p encStart) ∧
    Inv encMid ∧ encMid.mode = .enc ∧ encMid.bidx.toNat < encMid.nblk.toNat ∧ SpanHolds p encMid := by
  refine ⟨⟨inv_encStart, rfl, by decide, ?_⟩, inv_encMid, rfl, by decide, ?_⟩ <;>
    (simp only [SpanHolds]; decide)

theorem witness_SerializerIsMostSignificantFirst :
    (7 < 8) ∧ [true, false, true, false, false, true, false, true].length = 8 ∧
    ser8 0xA5 = [true, false, true, false, false, true, false, true] := by decide

theorem witness_BitSequenceIsTheConcatenation : 4095 < 512 * 8 := by decide

theorem witness_B2rMapsTheBlockToTheRaster :
    63 < small.grid * small.grid ∧ small.grid * small.grid ≤ 64 ∧
    4095 < State.reset.grid * State.reset.grid := by decide

theorem witness_R2bPacksTheThresholdedRaster :
    7 < small.blockSize ∧ 7 < 8 ∧ small.blockSize ≤ 8 := by decide

theorem witness_RasterRowsHoldWholeBytes :
    63 < State.reset.grid ∧ 7 < State.reset.grid / 8 ∧ 7 < 8 := by decide

theorem witness_B2rOutputIsBinarized : 4095 < State.reset.grid * State.reset.grid := by decide

theorem witness_R2bUndoesB2r :
    ({ encMid with thresh := 254 } : State).thresh.toNat ≤ 254 ∧ encMid.buf.wf := by decide

/-- Two states that agree on the configuration and the bytes read, and differ elsewhere. -/
theorem witness_MapperDependsOnlyOnWhatItReads :
    encMid.gdiv8 = ({ encMid with mode := .idle, bidx := 0 } : State).gdiv8 ∧
    (∀ j < encMid.blockSize,
      encMid.buf.read j = ({ encMid with buf := encMid.buf ++ [(8, 1)] } : State).buf.read j) ∧
    ∃ t t', exec .b2r encMid = .next t ∧
      exec .b2r { encMid with buf := encMid.buf ++ [(8, 1)] } = .next t' :=
  ⟨rfl, by decide, _, _, rfl, rfl⟩

theorem witness_DecInitOpensADecodeSession : small.mode = .idle ∧ encMid.mode ≠ .idle := by decide

/-- The header block, a data block, and a block beyond the payload with `BIDX` saturated. -/
theorem witness_DecBlockAcceptsTheBlock :
    (Inv decStart ∧ decStart.mode = .dec ∧ decStart.bidx = 0) ∧
    (Inv decMid ∧ decMid.mode = .dec ∧ decMid.bidx ≠ 0 ∧ decMid.pos.toNat < decMid.fsize.toNat) ∧
    (Inv decSaturated ∧ decSaturated.mode = .dec ∧ decSaturated.bidx ≠ 0 ∧
      decSaturated.fsize.toNat ≤ decSaturated.pos.toNat) ∧ encMid.mode ≠ .dec :=
  ⟨⟨inv_decStart, by decide⟩, ⟨inv_decMid, by decide⟩, ⟨inv_decSaturated, by decide⟩, by decide⟩

theorem witness_DecEndClosesTheDecodeSession :
    decStart.mode = .dec ∧ decStart.hdr = false ∧ decMid.mode = .dec ∧ decMid.hdr = true ∧
    decMid.pos.toNat < decMid.fsize.toNat ∧ decFull.mode = .dec ∧ decFull.hdr = true ∧
    decFull.fsize.toNat ≤ decFull.pos.toNat ∧ encMid.mode ≠ .dec := by decide

theorem witness_DecodedSpansCoverThePayload :
    (Inv decStart ∧ decStart.mode = .dec ∧ decStart.bidx.toNat < 2 ^ 64 - 1) ∧
    (Inv decMid ∧ decMid.mode = .dec ∧ decMid.bidx.toNat < 2 ^ 64 - 1) ∧
    Inv decFull ∧ decFull.mode = .dec ∧ decFull.bidx.toNat < 2 ^ 64 - 1 :=
  ⟨⟨inv_decStart, by decide⟩, ⟨inv_decMid, by decide⟩, inv_decFull, by decide⟩

theorem witness_DecEndChecksTheBlockCount :
    (Inv decStart ∧ SessionFlags decStart ∧ decStart.mode = .dec ∧ decStart.hdr = false) ∧
    (Inv decMid ∧ SessionFlags decMid ∧ decMid.hdr = true ∧ decMid.pos.toNat < decMid.fsize.toNat) ∧
    Inv decFull ∧ SessionFlags decFull ∧ decFull.hdr = true ∧ decFull.pos = decFull.fsize :=
  ⟨⟨inv_decStart, flags_decStart, by decide⟩, ⟨inv_decMid, flags_decMid, by decide⟩, inv_decFull,
    flags_decFull, by decide⟩

theorem witness_DecBlockParsesOneHeader :
    (Inv decMid ∧ decMid.mode = .dec ∧ decMid.hdr = true ∧ ∃ t, exec .decBlock decMid = .next t) ∧
    Inv decSaturated ∧ decSaturated.mode = .dec ∧ decSaturated.hdr = true ∧
    decSaturated.bidx = BitVec.allOnes 64 ∧ ∃ t, exec .decBlock decSaturated = .next t :=
  ⟨⟨inv_decMid, rfl, rfl, _, rfl⟩, inv_decSaturated, rfl, rfl, rfl, _, rfl⟩

/-- "ABC" at `G` = 8 (P1, P2): the header block, and the data block with its raster carried over. -/
theorem witness_OneBlockRoundTrip :
    let p : Nat → Byte := fun k => [0x41, 0x42, 0x43].getD k 0
    (Inv encStart ∧ encStart.mode = .enc ∧ encStart.bidx.toNat < encStart.nblk.toNat ∧
      SpanHolds p encStart ∧ Inv decStart ∧ decStart.mode = .dec ∧
      decStart.gdiv8 = encStart.gdiv8 ∧ decStart.bidx = encStart.bidx) ∧
    Inv encMid ∧ encMid.mode = .enc ∧ encMid.bidx.toNat < encMid.nblk.toNat ∧ SpanHolds p encMid ∧
    Inv decReceived ∧ decReceived.mode = .dec ∧ decReceived.gdiv8 = encMid.gdiv8 ∧
    decReceived.bidx = encMid.bidx ∧ decReceived.fsize = encMid.fsize ∧
    ∃ s1 s2, exec .encFrame encMid = .next s1 ∧ exec .b2r s1 = .next s2 ∧
      ∀ i < encMid.grid * encMid.grid, decReceived.ras.read i = s2.ras.read i := by
  refine ⟨⟨inv_encStart, rfl, by decide, ?_, inv_decStart, rfl, rfl, rfl⟩, inv_encMid, rfl, by decide,
    ?_, inv_decReceived, rfl, rfl, rfl, rfl, _, _, rfl, rfl, fun _ _ => rfl⟩ <;>
    (simp only [SpanHolds]; decide)

/-- A `CFG` in `IDLE` and a reset in a session: both change the configuration. -/
theorem witness_ConfigurationIsConstantInASession :
    (∃ t, step (pending 0xB0000030 0x01 { State.reset with arg := 0x8002 }) = .next t ∧
      t.gdiv8 ≠ State.reset.gdiv8) ∧
    ∃ t, step { encMid with inputs := [.reset [] []] } = .next t ∧ t.gdiv8 ≠ encMid.gdiv8 :=
  ⟨⟨_, rfl, by decide⟩, _, rfl, by decide⟩

/-- Every bit of `STATUS` set, and `DONE`, `HDR`, `EXTRA`, `INC` cleared, and every change of mode. -/
theorem witness_StatusChangesOnlyAsListed :
    (Inv encMid ∧ SessionFlags encMid ∧ ∃ t, exec .encFrame encMid = .next t ∧ t.done = true) ∧
    (Inv decStart ∧ SessionFlags decStart ∧ ∃ t, exec .decBlock decStart = .next t ∧ t.hdr = true) ∧
    (Inv decFull ∧ SessionFlags decFull ∧ ∃ t, exec .decBlock decFull = .next t ∧ t.extra = true) ∧
    (Inv decMid ∧ SessionFlags decMid ∧
      ∃ t, exec .decEnd decMid = .next t ∧ t.inc = true ∧ t.err = true ∧ t.mode = .idle) ∧
    ((latched .bus encMid).err = true ∧
      ∃ t, exec .clrerr (latched .bus encMid) = .next t ∧ t.err = false) ∧
    (∃ t, exec .encInit { small with done := true, hdr := true, extra := true, inc := true } = .next t ∧
      t.done = false ∧ t.hdr = false ∧ t.extra = false ∧ t.inc = false ∧ t.mode = .enc) ∧
    (∃ t, exec .decInit small = .next t ∧ t.mode = .dec) ∧
    (∃ t, exec .encEnd encMid = .next t ∧ t.inc = true ∧ t.mode = .idle) ∧
    ∃ t, exec .abort encMid = .next t ∧ t.mode = .idle :=
  ⟨⟨inv_encMid, flags_encMid, _, rfl, rfl⟩, ⟨inv_decStart, flags_decStart, _, rfl, rfl⟩,
    ⟨inv_decFull, flags_decFull, _, rfl, rfl⟩, ⟨inv_decMid, flags_decMid, _, rfl, rfl, rfl, rfl⟩,
    ⟨rfl, _, rfl, rfl⟩, ⟨_, rfl, rfl, rfl, rfl, rfl, rfl⟩, ⟨_, rfl, rfl⟩, ⟨_, rfl, rfl, rfl⟩,
    _, rfl, rfl⟩

/-- Each kind of register written by an instruction the statement names for it. -/
theorem witness_OnlyTheirOwnInstructionsWriteEachRegister :
    (∃ t, exec (.regWr .arg) { encMid with wdata := 9 } = .next t ∧ t.arg ≠ encMid.arg) ∧
    (∃ t, exec .cfg { State.reset with arg := 0x8002 } = .next t ∧ t.gdiv8 ≠ State.reset.gdiv8) ∧
    (∃ t, exec .decBlock decStart = .next t ∧ t.fsize ≠ decStart.fsize ∧ t.bidx ≠ decStart.bidx) ∧
    (∃ t, exec .encFrame encMid = .next t ∧ t.buf ≠ encMid.buf) ∧
    (∃ t, exec (.rasWr 0) { encMid with wdata := 9 } = .next t ∧ t.ras ≠ encMid.ras) ∧
    ∃ t, exec (.regRd .id) encMid = .next t ∧ t.rdata ≠ encMid.rdata :=
  ⟨⟨_, rfl, by decide⟩, ⟨_, rfl, by decide⟩, ⟨_, rfl, by decide, by decide⟩, ⟨_, rfl, by decide⟩,
    ⟨_, rfl, by decide⟩, _, rfl, by decide⟩

/-- A command that writes to the last byte of the block, and the first byte beyond it. -/
theorem witness_CommandsStayInsideTheCurrentBlock :
    1 ≤ encMid.gdiv8.toNat ∧ encodeWidth .encFrame = 64 ∧ encMid.blockSize ≤ 8 ∧
    encMid.grid * encMid.grid ≤ 64 ∧
    ∃ t, exec .encFrame encMid = .next t ∧ t.buf.read 7 ≠ encMid.buf.read 7 :=
  ⟨by decide, rfl, by decide, by decide, _, rfl, by decide⟩

theorem witness_EveryStepKeepsTheInvariants :
    Inv (pending 0xB0000030 0x01 small) ∧
    ∃ t, step (pending 0xB0000030 0x01 small) = .next t ∧ t.code = .badarg := by
  refine ⟨?_, _, rfl, rfl⟩
  constructor <;> first | decide | (intro h; cases h)

theorem witness_EveryStepKeepsTheSessionFlags :
    Inv decSaturated ∧ SessionFlags decSaturated ∧ ∃ t, step decSaturated = .next t :=
  ⟨inv_decSaturated, flags_decSaturated, _, rfl⟩

theorem witness_ResetMeetsTheInvariants :
    Config.LegalGMax encMid.gMax ∧ encMid.cap = BitVec.ofNat 64 encMid.gMax ∧
    Config.LegalGMax ({ State.reset with cap := 2040 } : State).gMax ∧
    ({ State.reset with cap := 2040 } : State).cap
      = BitVec.ofNat 64 ({ State.reset with cap := 2040 } : State).gMax := by decide

/-- A reset with a draw, and steps that change the last byte of a buffer or its first cell. -/
theorem witness_ResetPutsEveryRegisterAtItsValue :
    (({ encMid with inputs := [.reset [1, 2] [3], .reset [] []] } : State).inputs
      = .reset [1, 2] [3] :: [.reset [] []] ∧ 511 < Config.bsMax encMid.gMax ∧
      4095 < Config.rasMax encMid.gMax ∧ ([1, 2] : List Byte)[1]? = some 2) ∧
    (∃ t, step (pending 0x801001FF 9 encMid) = .next t ∧
      t.buf.read 0x1FF ≠ (pending 0x801001FF 9 encMid).buf.read 0x1FF) ∧
    ∃ t, step (pending 0x80400000 9 encMid) = .next t ∧
      t.ras.read 0 ≠ (pending 0x80400000 9 encMid).ras.read 0 :=
  ⟨⟨rfl, by decide, by decide, rfl⟩, ⟨_, rfl, by decide⟩, _, rfl, by decide⟩

/-- A state, and the same with other contents of the host port's fields. -/
theorem witness_HostReadsDetermineTheBlock :
    Inv encMid ∧ Inv ({ encMid with wdata := 1, rdata := 2 } : State) ∧
    (∀ r, readReg encMid r = readReg ({ encMid with wdata := 1, rdata := 2 } : State) r) ∧
    (∀ i < Config.bsMax encMid.gMax,
      encMid.buf.read i = ({ encMid with wdata := 1, rdata := 2 } : State).buf.read i) ∧
    ∀ i < Config.rasMax encMid.gMax,
      encMid.ras.read i = ({ encMid with wdata := 1, rdata := 2 } : State).ras.read i := by
  refine ⟨inv_encMid, ?_, fun _ => rfl, fun _ _ => rfl, fun _ _ => rfl⟩
  constructor <;> first | decide | (intro _; constructor <;> decide) | (intro h; cases h)

theorem witness_OpeningASessionForgetsEarlierOnes : small.mode = .idle := rfl

end Sys2Proof.Tests
end

section
/-! SUPPORT. What an access and a command word that decode are, bit for bit, and which instruction a register
write performs. -/

namespace Sys2Proof

/-- A command word that decodes is the word of its row (R102, R106). -/
theorem toNat_of_decodeCommand {w : Word} {c : Instr} (h : decodeCommand w = .ok c) :
    w.toNat = encodeWord c := by
  have hop := opField_toNat w
  have hrsv := cwRsvField_toNat w
  unfold decodeCommand at h
  split at h
  · cases h
  · rename_i hz
    have hz' : (cwRsvField w).toNat = 0 := by rw [not_not.mp hz]; rfl
    split at h <;> cases h <;> simp only [encodeWord] <;> omega

/-- The descriptor of a write to `CMD` (R44, R111). -/
theorem desc_of_decodeAccess_cmd {g : Nat} {d : Desc} (h : decodeAccess g d = .ok (.regWr .cmd)) :
    d = 0xB0000030#32 := by
  have hrow : d.toNat / 128 * 128 + d.toNat % 8 = 0xB0000000 ∧ d.toNat % 2 ^ 23 = 0x30 := by
    simpa [Reg.offset] using decodeAccess_eq_ok.mp h
  apply BitVec.eq_of_toNat_eq
  simp only [BitVec.toNat_ofNat]
  omega

end Sys2Proof

namespace Sys2Proof.Machine

/-- An instruction performs itself, but for a `CMD` write whose data are a command. -/
theorem performed_cases (i : Instr) (s : State) :
    performed i s = i ∨ (i = .regWr .cmd ∧ decodeCommand s.wdata = .ok (performed i s)) := by
  by_cases hi : i = .regWr .cmd
  · subst hi
    cases hd : decodeCommand s.wdata with
    | ok c => exact .inr ⟨rfl, by simp [performed, hd]⟩
    | error e => exact .inl (by simp [performed, hd])
  · exact .inl (performed_of_ne hi s)

/-- Only the access of a host operation performs a host operation. -/
theorem eq_of_performed_hostOp {i j : Instr} {s : State} (h : performed i s = j)
    (hj : encodeWidth j = 32) : i = j := by
  rcases performed_cases i s with hp | ⟨-, hd⟩
  · exact hp.symm.trans h
  · have := decodeCommand_isCommand hd
    simp [h, hj] at this

/-- The access that performs a command is the write of that command's word to `CMD` (R44, R74, R100). -/
theorem access_of_performed_command {a : Access} {g : Nat} {i c : Instr} {s : State}
    (hd : decodeAccess g a.desc = .ok i) (hw : s.wdata = a.data) (hp : performed i s = c)
    (hc : encodeWidth c = 64) : a = ⟨0xB0000030#32, BitVec.ofNat 64 (encodeWord c)⟩ := by
  have hi := decodeAccess_isHostOp hd
  rcases performed_cases i s with h | ⟨rfl, h⟩
  · rw [← h, hp, hc] at hi
    cases hi
  · rw [hp, hw] at h
    rw [← desc_of_decodeAccess_cmd hd, ← toNat_of_decodeCommand h, BitVec.ofNat_toNat,
      BitVec.setWidth_eq]

end Sys2Proof.Machine
end

section
/-! SUPPORT. What an instruction and a step can do, said once, with what each leaves unchanged; from it, which
instruction changes the configuration, the latch or a buffer. -/

namespace Sys2Proof.Machine

/-- `t` is `s` but for the session (its registers, the flags other than `ERR`, the mode) and the read data. -/
structure SameOutsideSession (s t : State) : Prop where
  id_eq : t.id = s.id
  cap_eq : t.cap = s.cap
  gdiv8_eq : t.gdiv8 = s.gdiv8
  thresh_eq : t.thresh = s.thresh
  err_eq : t.err = s.err
  code_eq : t.code = s.code
  arg_eq : t.arg = s.arg
  buf_eq : t.buf = s.buf
  ras_eq : t.ras = s.ras
  inputs_eq : t.inputs = s.inputs
  wdata_eq : t.wdata = s.wdata

theorem SameOutsideSession.refl (s : State) : SameOutsideSession s s := by
  constructor <;> rfl

/-- What an instruction that takes effect can do to what is outside the session. -/
inductive Effect : Instr → State → State → Prop where
  /-- Nothing. -/
  | plain {c : Instr} {s t : State} (same : SameOutsideSession s t) : Effect c s t
  /-- It records an error: a rejection, a bus error, or an incomplete session's end. -/
  | error {c : Instr} {s t : State} (e : ErrCode) (same : SameOutsideSession (recordError e s) t) :
      Effect c s t
  /-- An accepted `CFG` (R221). -/
  | cfg {s : State} (idle : s.mode = .idle) :
      Effect .cfg s { s with gdiv8 := argGdiv8 s.arg, thresh := argThresh s.arg }
  /-- `CLRERR` (R224). -/
  | clrerr (s : State) : Effect .clrerr s { s with err := false, code := .none }
  /-- `ENC_FRAME` and `R2B` write the block buffer (R136, R171). -/
  | block {c : Instr} {s t : State} (command : c = .encFrame ∨ c = .r2b)
      (same : SameOutsideSession { s with buf := t.buf } t) : Effect c s t
  /-- `B2R` writes the raster buffer (R165). -/
  | raster (s : State) (ras : Memory) : Effect .b2r s { s with ras := ras }
  /-- A write to `ARG` (R74). -/
  | arg (s : State) : Effect (.regWr .arg) s { s with arg := s.wdata }
  /-- A write through the `BUF` window (R75). -/
  | bufWr (s : State) (off : BitVec 20) :
      Effect (.bufWr off) s { s with buf := s.buf.write off.toNat (s.wdata.extractLsb' 0 8) }
  /-- A write through the `RAS` window (R76). -/
  | rasWr (s : State) (off : BitVec 22) :
      Effect (.rasWr off) s { s with ras := s.ras.write off.toNat (s.wdata.extractLsb' 0 8) }

namespace Effect

/-- A rejection changes nothing but the latch (R245). -/
theorem of_recordError {c : Instr} {s t : State} {e : ErrCode} (h : t = recordError e s) :
    Effect c s t :=
  .error e (h ▸ .refl _)

/-- A read that is a bus error also returns 0 (R78). -/
theorem of_busErrorRead {c : Instr} {s t : State} (h : t = { recordError .bus s with rdata := 0 }) :
    Effect c s t :=
  .error .bus (by subst h; constructor <;> rfl)

end Effect

/-- Whatever block it parses, `DEC_BLOCK` sets session registers and flags only. -/
theorem parsedBlock_sameOutsideSession (s : State) : SameOutsideSession s (parsedBlock s) := by
  unfold parsedBlock
  split
  · constructor <;> rfl
  · split <;> constructor <;> rfl

/-- The twelve commands (R106), each by what it can do. -/
theorem effect_of_exec_command {c : Instr} {s t : State} (hc : encodeWidth c = 64)
    (h : exec c s = .next t) : Effect c s t := by
  cases c with
  | nop => exact .plain (by cases h; exact .refl s)
  | abort => exact .plain (by cases h; constructor <;> rfl)
  | clrerr => exact exec_clrerr_cases h ▸ .clrerr s
  | b2r => exact exec_b2r_cases h ▸ .raster s _
  | r2b => exact .block (.inr rfl) (by cases h; constructor <;> rfl)
  | cfg =>
    obtain ⟨-, ht⟩ | ⟨-, -, ht⟩ | ⟨hm, -, rfl⟩ := exec_cfg_cases h
    · exact .of_recordError ht
    · exact .of_recordError ht
    · exact .cfg hm
  | encInit =>
    obtain ⟨-, ht⟩ | ⟨-, rfl⟩ := exec_encInit_cases h
    · exact .of_recordError ht
    · exact .plain (by constructor <;> rfl)
  | decInit =>
    obtain ⟨-, ht⟩ | ⟨-, rfl⟩ := exec_decInit_cases h
    · exact .of_recordError ht
    · exact .plain (by constructor <;> rfl)
  | encFrame =>
    obtain ⟨-, ht⟩ | ⟨-, -, ht⟩ | ⟨-, -, -, rfl⟩ | ⟨-, -, rfl⟩ := exec_encFrame_cases h
    · exact .of_recordError ht
    · exact .of_recordError ht
    · exact .block (.inl rfl) (by constructor <;> rfl)
    · exact .block (.inl rfl) (by constructor <;> rfl)
  | decBlock =>
    obtain ⟨-, ht⟩ | ⟨-, rfl⟩ := exec_decBlock_cases h
    · exact .of_recordError ht
    · exact .plain { parsedBlock_sameOutsideSession s with }
  | encEnd =>
    obtain ⟨-, ht⟩ | ⟨-, -, rfl⟩ | ⟨-, -, rfl⟩ := exec_encEnd_cases h
    · exact .of_recordError ht
    · exact .error .incompleteEnc (by constructor <;> rfl)
    · exact .plain (by constructor <;> rfl)
  | decEnd =>
    obtain ⟨-, ht⟩ | ⟨-, -, rfl⟩ | ⟨-, -, -, rfl⟩ := exec_decEnd_cases h
    · exact .of_recordError ht
    · exact .error .incompleteDec (by constructor <;> rfl)
    · exact .plain (by constructor <;> rfl)
  | _ => simp [encodeWidth] at hc

/-- The host operations (R111) other than a `CMD` write, each by what it can do. -/
theorem effect_of_exec_hostOp {i : Instr} {s t : State} (hw : encodeWidth i = 32)
    (hi : i ≠ .regWr .cmd) (h : exec i s = .next t) : Effect i s t := by
  cases i with
  | regRd r => exact .plain (by cases h; constructor <;> rfl)
  | bufRd off =>
    obtain ⟨-, rfl⟩ | ⟨-, ht⟩ := exec_bufRd_cases h
    · exact .plain (by constructor <;> rfl)
    · exact .of_busErrorRead ht
  | rasRd off =>
    obtain ⟨-, rfl⟩ | ⟨-, ht⟩ := exec_rasRd_cases h
    · exact .plain (by constructor <;> rfl)
    · exact .of_busErrorRead ht
  | regWr r =>
    obtain ⟨rfl, rfl⟩ | ⟨-, ht⟩ := exec_regWr_cases (fun hr => hi (hr ▸ rfl)) h
    · exact .arg s
    · exact .of_recordError ht
  | bufWr off =>
    obtain ⟨-, rfl⟩ | ⟨-, ht⟩ := exec_bufWr_cases h
    · exact .bufWr s off
    · exact .of_recordError ht
  | rasWr off =>
    obtain ⟨-, rfl⟩ | ⟨-, ht⟩ := exec_rasWr_cases h
    · exact .rasWr s off
    · exact .of_recordError ht
  | _ => simp [encodeWidth] at hw

/-- Every instruction has the effect of the instruction it performs. -/
theorem effect_of_exec {i : Instr} {s t : State} (h : exec i s = .next t) :
    Effect (performed i s) s t :=
  exec_induction h (fun _ => effect_of_exec_command) (fun hw hi => effect_of_exec_hostOp hw hi h)
    (fun _ => .of_recordError)

/-- What a step can do: wait, take the platform's reset, or take an access, which is a bus error or has the
effect of the instruction it performs. -/
theorem step_effect_cases {s t : State} (h : step s = .next t) :
    t = s ∨
    (∃ b r rest, s.inputs = .reset b r :: rest ∧ t = platformReset b r { s with inputs := rest }) ∨
    ∃ a rest, s.inputs = .access a :: rest ∧
      (SameOutsideSession (recordError .bus (beginAccess a rest s)) t ∨
        ∃ i, decodeAccess s.gMax a.desc = .ok i ∧
          Effect (performed i (beginAccess a rest s)) (beginAccess a rest s) t) := by
  obtain ⟨-, ht⟩ | hreset | ⟨a, rest, hin, ⟨i, hd, hx⟩ | ⟨-, rfl⟩⟩ := step_cases h
  · exact .inl ht
  · exact .inr (.inl hreset)
  · exact .inr (.inr ⟨a, rest, hin, .inr ⟨i, hd, effect_of_exec hx⟩⟩)
  · refine .inr (.inr ⟨a, rest, hin, .inl ?_⟩)
    split
    · exact .refl _
    · constructor <;> rfl

namespace Effect

variable {c : Instr} {s t : State}

/-- No instruction writes `ID` or `CAP` (R31, R32). -/
theorem id_cap_eq (h : Effect c s t) : t.id = s.id ∧ t.cap = s.cap := by
  cases h with
  | plain same => exact ⟨same.id_eq, same.cap_eq⟩
  | error e same => simp [same.id_eq, same.cap_eq]
  | block _ same => exact ⟨same.id_eq, same.cap_eq⟩
  | cfg | clrerr | raster | arg | bufWr | rasWr => exact ⟨rfl, rfl⟩

/-- Only `CFG` in `IDLE` writes the configuration (R33, R34). -/
theorem cfg_of_config_ne (h : Effect c s t) (hne : t.gdiv8 ≠ s.gdiv8 ∨ t.thresh ≠ s.thresh) :
    c = .cfg ∧ s.mode = .idle := by
  cases h with
  | cfg idle => exact ⟨rfl, idle⟩
  | plain same => simp [same.gdiv8_eq, same.thresh_eq] at hne
  | error e same => simp [same.gdiv8_eq, same.thresh_eq] at hne
  | block _ same => simp [same.gdiv8_eq, same.thresh_eq] at hne
  | clrerr | raster | arg | bufWr | rasWr => simp at hne

/-- Only `CLRERR` clears a latched error or changes its code (R36, R244). -/
theorem latched_or_clrerr (h : Effect c s t) (he : s.err = true) :
    (t.err = true ∧ t.code = s.code) ∨ c = .clrerr := by
  cases h with
  | clrerr => exact .inr rfl
  | plain same => exact .inl ⟨same.err_eq.trans he, same.code_eq⟩
  | error e same => exact .inl (by simp [same.err_eq, same.code_eq, he])
  | block _ same => exact .inl ⟨same.err_eq.trans he, same.code_eq⟩
  | cfg | raster | arg | bufWr | rasWr => exact .inl ⟨he, rfl⟩

/-- Only `ENC_FRAME`, `R2B` and a write of that byte through the window write a byte of `BUF` (R52). -/
theorem writer_of_buf_ne (h : Effect c s t) {k : Nat} (hne : t.buf.read k ≠ s.buf.read k) :
    c = .encFrame ∨ c = .r2b ∨ ∃ off, c = .bufWr off ∧ off.toNat = k := by
  cases h with
  | block command => exact command.imp_right .inl
  | bufWr _ off =>
    have hk : k = off.toNat := by
      by_contra hk
      exact hne ((Memory.read_write _ _ _ _).trans (if_neg hk))
    exact .inr (.inr ⟨off, rfl, hk.symm⟩)
  | plain same => exact absurd (by rw [same.buf_eq]) hne
  | error e same => exact absurd (by rw [same.buf_eq, recordError_buf]) hne
  | cfg | clrerr | raster | arg | rasWr => exact absurd rfl hne

/-- Only `B2R` and a write of that cell through the window write a cell of `RAS` (R53). -/
theorem writer_of_ras_ne (h : Effect c s t) {k : Nat} (hne : t.ras.read k ≠ s.ras.read k) :
    c = .b2r ∨ ∃ off, c = .rasWr off ∧ off.toNat = k := by
  cases h with
  | raster => exact .inl rfl
  | rasWr _ off =>
    have hk : k = off.toNat := by
      by_contra hk
      exact hne ((Memory.read_write _ _ _ _).trans (if_neg hk))
    exact .inr ⟨off, rfl, hk.symm⟩
  | plain same => exact absurd (by rw [same.ras_eq]) hne
  | error e same => exact absurd (by rw [same.ras_eq, recordError_ras]) hne
  | block _ same => exact absurd (by rw [same.ras_eq]) hne
  | cfg | clrerr | arg | bufWr => exact absurd rfl hne

end Effect

end Sys2Proof.Machine
end

section
/-! SUPPORT. A command runs alike with any latch (R250): the two runs are compared piece by piece, along the
forms the commands' rules are made of. -/

namespace Sys2Proof.Machine

/-- `s` with another latch. -/
def State.withLatch (s : State) (e : Bool) (c : ErrCode) : State := { s with err := e, code := c }

/-- Two results that are states alike but for the latch. -/
def AgreeButLatch (x y : Result) : Prop :=
  ∃ t t' : State, x = .next t ∧ y = .next t' ∧ t' = { t with err := t'.err, code := t'.code }

namespace AgreeButLatch

variable {x x' y y' : Result}

theorem next {t t' : State} (h : t' = { t with err := t'.err, code := t'.code }) :
    AgreeButLatch (.next t) (.next t') :=
  ⟨t, t', rfl, rfl, h⟩

/-- A rejection, and the recording of an error by a command that completes, change the latch only. -/
theorem recordError {s s' : State} (h : s' = { s with err := s'.err, code := s'.code })
    (e : ErrCode) : AgreeButLatch (.next (Machine.recordError e s)) (.next (Machine.recordError e s')) :=
  next (by rw [recordError_eq, recordError_eq, h])

theorem ite {p : Prop} [Decidable p] (h : AgreeButLatch x y) (h' : AgreeButLatch x' y') :
    AgreeButLatch (if p then x else x') (if p then y else y') := by
  split
  · exact h
  · exact h'

theorem whenLegal {i : Instr} {s : State} {e : Bool} {c : ErrCode} (h : AgreeButLatch x y) :
    AgreeButLatch (Machine.whenLegal i s x) (Machine.whenLegal i (s.withLatch e c) y) :=
  ite h (recordError rfl .mode)

end AgreeButLatch

/-- The block that `DEC_BLOCK` parses does not depend on the latch. -/
theorem parsedBlock_withLatch (s : State) (e : Bool) (c : ErrCode) :
    parsedBlock (s.withLatch e c) = (parsedBlock s).withLatch e c := by
  by_cases h : s.bidx = 0
  · rw [parsedBlock_header h, parsedBlock_header (s := s.withLatch e c) h]
    rfl
  · by_cases hp : s.pos.toNat < s.fsize.toNat
    · rw [parsedBlock_data h hp, parsedBlock_data (s := s.withLatch e c) h hp]
      rfl
    · rw [parsedBlock_extra h (by omega),
        parsedBlock_extra (s := s.withLatch e c) h (Nat.le_of_not_lt hp)]
      rfl

/-- What a command does with one latch it does with any other, but for the latch (R249, R250). -/
theorem exec_command_agreeButLatch {i : Instr} (hi : encodeWidth i = 64) (s : State) (e : Bool)
    (c : ErrCode) : AgreeButLatch (exec i s) (exec i (s.withLatch e c)) := by
  cases i with
  | nop | abort | clrerr | b2r | r2b => exact .next rfl
  | encInit | decInit => exact .whenLegal (.next rfl)
  | cfg => exact .whenLegal (.ite (.recordError rfl .badarg) (.next rfl))
  | encFrame => exact .whenLegal (.ite (.recordError rfl .seq) (.next rfl))
  | encEnd | decEnd =>
    exact .whenLegal (.ite (.next (by simp only [recordError_eq]; rfl)) (.next rfl))
  | decBlock =>
    refine .whenLegal (.next ?_)
    rw [parsedBlock_withLatch]
    rfl
  | _ => simp [encodeWidth] at hi

end Sys2Proof.Machine
end

section
/-! SUPPORT. The statements on the registers and the buffers as state (10_state.md). -/

namespace Sys2Proof.Machine

/-! ### Registers that no instruction writes -/

theorem exec_regRd (r : Reg) (s : State) :
    exec (.regRd r) s = .next { s with rdata := readReg s r } := rfl

/-- `CAP` is `G_MAX` alone: its higher bits are 0 (R32). -/
theorem cap_toNat {s : State} (h : s.cap = BitVec.ofNat 64 s.gMax) : s.cap.toNat = s.gMax := by
  have hg : s.gMax < 2 ^ 16 := BitVec.isLt _
  rw [h, ofNat64_toNat (by omega)]

/-- Every step leaves `ID` and `CAP`; the reset writes into `ID` what the invariant says it holds. -/
theorem step_id_cap_eq {s t : State} (hi : s.id = Config.idValue) (h : step s = .next t) :
    t.id = s.id ∧ t.cap = s.cap := by
  obtain rfl | ⟨b, r, rest, -, rfl⟩ | ⟨a, rest, -, same | ⟨i, -, he⟩⟩ := step_effect_cases h
  · exact ⟨rfl, rfl⟩
  · exact ⟨hi.symm, rfl⟩
  · simp [same.id_eq, same.cap_eq]
  · exact he.id_cap_eq

/-- Settles O14: the constants are kept by every step, and `CAP` holds `G_MAX` alone by the invariant. -/
theorem idAndCapAreConstants : Obligations.IdAndCapAreConstants := by
  unfold Obligations.IdAndCapAreConstants
  refine ⟨fun s t hs h => step_id_cap_eq hs.id_eq h, fun s hs => ⟨?_, s.cap, exec_regRd .cap s,
    cap_toNat hs.cap_eq, hs.gMax_legal⟩, fun s => ⟨rfl, rfl⟩⟩
  rw [exec_regRd, readReg, hs.id_eq, Config.idValue]

/-- `BSIZE` has room for every block size (R51). -/
theorem readReg_bsize_toNat (s : State) : (readReg s .bsize).toNat = s.blockSize := by
  have := blockSize_le s
  exact ofNat64_toNat (by omega)

/-- `bs = 8 × GDIV8²`, as R18 writes it. -/
theorem blockSize_eq (s : State) : s.blockSize = 8 * s.gdiv8.toNat ^ 2 := by
  rw [State.blockSize, sq]

/-- An accepted `CFG` (R221). -/
theorem exec_cfg_of_accepted {s : State} (hm : s.mode = .idle)
    (ha : cfgOperandBad s.gMax s.arg = false) :
    exec .cfg s = .next { s with gdiv8 := argGdiv8 s.arg, thresh := argThresh s.arg } := by
  have hl : legalIn .cfg s.mode = true := by rw [hm]; rfl
  exact (whenLegal_of_legal hl _).trans (by rw [ha]; rfl)

/-- Settles O15: `BSIZE` is computed from `GDIV8`, which an accepted `CFG` takes from `ARG[7:0]`. -/
theorem bsizeReadsTheBlockSize : Obligations.BsizeReadsTheBlockSize := by
  unfold Obligations.BsizeReadsTheBlockSize
  refine ⟨fun s => ⟨_, exec_regRd .bsize s, ?_⟩, exec_regRd .bsize _, fun s => rfl,
    fun s hm ha => ⟨_, _, exec_cfg_of_accepted hm ha, exec_regRd .bsize _, ?_, ?_, ?_⟩⟩
  · rw [readReg_bsize_toNat, blockSize_eq]
  · rw [readReg_bsize_toNat, blockSize_eq, argGdiv8_toNat]
  · rw [State.grid, argGdiv8_toNat]
  · rw [blockSize_eq, argGdiv8_toNat]

/-! ### The latch and the configuration over a step -/

/-- Settles O22: of all effects only that of `CLRERR` clears a latch, and a command takes no notice of it. -/
theorem onlyClrerrOrResetClearsTheLatch : Obligations.OnlyClrerrOrResetClearsTheLatch := by
  unfold Obligations.OnlyClrerrOrResetClearsTheLatch
  refine ⟨fun s t h he => ?_, fun s => rfl, fun c s t hc _ h => ?_⟩
  · obtain rfl | ⟨b, r, rest, hin, -⟩ | ⟨a, rest, hin, same | ⟨i, hd, heff⟩⟩ := step_effect_cases h
    · exact .inl ⟨he, rfl⟩
    · exact .inr (.inr ⟨b, r, rest, hin⟩)
    · exact .inl (by simp [same.err_eq, same.code_eq, he])
    · obtain hkept | hp := heff.latched_or_clrerr he
      · exact .inl hkept
      · have ha := access_of_performed_command hd rfl hp rfl
        exact .inr (.inl ⟨rest, ha ▸ hin⟩)
  · obtain ⟨u, t', hu, ht', hag⟩ :=
      exec_command_agreeButLatch hc { s with err := false, code := .none } s.err s.code
    obtain rfl : u = t := Host.Outcome.next.inj (hu.symm.trans h)
    exact ⟨t', ht', hag⟩

/-- Settles O51: of all effects only that of an accepted `CFG` writes the configuration. -/
theorem configurationIsConstantInASession : Obligations.ConfigurationIsConstantInASession := by
  unfold Obligations.ConfigurationIsConstantInASession
  intro s t h hne
  obtain rfl | ⟨b, r, rest, hin, -⟩ | ⟨a, rest, hin, same | ⟨i, hd, heff⟩⟩ := step_effect_cases h
  · simp at hne
  · exact .inl ⟨b, r, rest, hin⟩
  · simp [same.gdiv8_eq, same.thresh_eq] at hne
  · obtain ⟨hp, hidle⟩ := heff.cfg_of_config_ne hne
    have ha := access_of_performed_command hd rfl hp rfl
    exact .inr ⟨hidle, rest, ha ▸ hin⟩

/-! ### Reset -/

/-- The step that takes the platform's reset (R270). -/
theorem step_of_reset {s : State} {b r : List Byte} {rest : List Input}
    (h : s.inputs = .reset b r :: rest) :
    step s = .next (platformReset b r { s with inputs := rest }) := by
  simp [step, fetch, h]

/-- A buffer holds each byte of its draw that has a place in it (R57). -/
theorem read_ofBytes_take {l : List Byte} {n i : Nat} {x : Byte} (hi : i < n)
    (hx : l[i]? = some x) : (Memory.ofBytes 0 (l.take n)).read i = x := by
  simp [Memory.read_ofBytes, List.getElem?_take_of_lt hi, hx]

/-- A byte of `BUF` is stable until written: a reset, a command that writes `BUF`, or a write of that byte. -/
theorem step_buf_stable {s t : State} {k : Nat} (h : step s = .next t)
    (hne : t.buf.read k ≠ s.buf.read k) :
    (∃ b r rest, s.inputs = .reset b r :: rest) ∨
    ∃ a rest i, s.inputs = .access a :: rest ∧ decodeAccess s.gMax a.desc = .ok i ∧
      (performed i { s with wdata := a.data } = .encFrame ∨
        performed i { s with wdata := a.data } = .r2b ∨ ∃ off, i = .bufWr off ∧ off.toNat = k) := by
  obtain rfl | ⟨b, r, rest, hin, -⟩ | ⟨a, rest, hin, same | ⟨i, hd, heff⟩⟩ := step_effect_cases h
  · exact absurd rfl hne
  · exact .inl ⟨b, r, rest, hin⟩
  · exact absurd (by simp [same.buf_eq]) hne
  · refine .inr ⟨a, rest, i, hin, hd, (heff.writer_of_buf_ne hne).imp_right (.imp_right ?_)⟩
    rintro ⟨off, hp, hoff⟩
    exact ⟨off, eq_of_performed_hostOp hp rfl, hoff⟩

/-- The same of a cell of `RAS`. -/
theorem step_ras_stable {s t : State} {k : Nat} (h : step s = .next t)
    (hne : t.ras.read k ≠ s.ras.read k) :
    (∃ b r rest, s.inputs = .reset b r :: rest) ∨
    ∃ a rest i, s.inputs = .access a :: rest ∧ decodeAccess s.gMax a.desc = .ok i ∧
      (performed i { s with wdata := a.data } = .b2r ∨ ∃ off, i = .rasWr off ∧ off.toNat = k) := by
  obtain rfl | ⟨b, r, rest, hin, -⟩ | ⟨a, rest, hin, same | ⟨i, hd, heff⟩⟩ := step_effect_cases h
  · exact absurd rfl hne
  · exact .inl ⟨b, r, rest, hin⟩
  · exact absurd (by simp [same.ras_eq]) hne
  · refine .inr ⟨a, rest, i, hin, hd, (heff.writer_of_ras_ne hne).imp_right ?_⟩
    rintro ⟨off, hp, hoff⟩
    exact ⟨off, eq_of_performed_hostOp hp rfl, hoff⟩

/-- Settles O58: the reset values are `State.reset`'s, the bytes the draw's; of all effects only those that
write a buffer change a byte of it. -/
theorem resetPutsEveryRegisterAtItsValue : Obligations.ResetPutsEveryRegisterAtItsValue := by
  unfold Obligations.ResetPutsEveryRegisterAtItsValue
  refine ⟨fun r => ?_, fun s b r rest hin => ⟨_, step_of_reset hin, rfl, rfl, rfl, rfl, rfl, rfl, rfl,
    rfl, rfl, rfl, rfl, rfl, rfl, rfl, rfl, rfl, rfl, rfl, fun i hi x hx => read_ofBytes_take hi hx,
    fun i hi x hx => read_ofBytes_take hi hx⟩, fun s t k h => ⟨step_buf_stable h, step_ras_stable h⟩⟩
  cases r <;> rfl

end Sys2Proof.Machine
end

section
/-! SUPPORT. The three kinds of access of R72, R75 and R76, said by their fields, are what the decoder answers
(R111), and the step that takes an access. -/

namespace Sys2Proof.Machine

/-! ### Which accesses decode -/

/-- A legal register access names a register (R71, R72). -/
theorem exists_reg_of_registerAccess {d : Desc} (h : RegisterAccess d) :
    ∃ r : Reg, (addrField d).toNat = r.offset := by
  obtain ⟨-, -, halign, hlt⟩ := h
  cases hr : Reg.ofOffset (addrField d).toNat with
  | some r => exact ⟨r, Reg.ofOffset_eq_some.mp hr⟩
  | none => have := Reg.ofOffset_eq_none hr; omega

theorem decodeAccess_of_registerAccess {g : Nat} {d : Desc} {r : Reg} (h : RegisterAccess d)
    (hr : (addrField d).toNat = r.offset) :
    decodeAccess g d = .ok (if wField d = true then .regWr r else .regRd r) := by
  have hd := d.isLt
  simp only [RegisterAccess, szField_toNat, htRsvField_toNat, addrField_toNat] at h hr
  simp only [wField_eq, decide_eq_true_eq, decodeAccess_eq_ok]
  split
  · exact .inr (.inl ⟨by omega, r, rfl, hr⟩)
  · exact .inl ⟨by omega, r, rfl, hr⟩

theorem decodeAccess_of_bufAccess {g : Nat} {d : Desc} (hg : Config.LegalGMax g)
    (h : BufAccess g d) :
    decodeAccess g d = .ok (if wField d = true
      then .bufWr (BitVec.ofNat 20 ((addrField d).toNat - 0x100000))
      else .bufRd (BitVec.ofNat 20 ((addrField d).toNat - 0x100000))) := by
  have hd := d.isLt
  have hsize := bsMax_le hg
  simp only [BufAccess, szField_toNat, htRsvField_toNat, addrField_toNat] at h
  have hoff : BitVec.ofNat 20 ((addrField d).toNat - 0x100000) = d.extractLsb' 0 20 := by
    apply BitVec.eq_of_toNat_eq
    simp only [BitVec.toNat_ofNat, addrField_toNat, BitVec.extractLsb'_toNat, Nat.shiftRight_zero]
    omega
  simp only [hoff, wField_eq, decide_eq_true_eq, decodeAccess_eq_ok]
  split
  · exact .inr (.inr (.inr (.inl ⟨by omega, rfl, by omega⟩)))
  · exact .inr (.inr (.inl ⟨by omega, rfl, by omega⟩))

theorem decodeAccess_of_rasAccess {g : Nat} {d : Desc} (hg : Config.LegalGMax g)
    (h : RasAccess g d) :
    decodeAccess g d = .ok (if wField d = true
      then .rasWr (BitVec.ofNat 22 ((addrField d).toNat - 0x400000))
      else .rasRd (BitVec.ofNat 22 ((addrField d).toNat - 0x400000))) := by
  have hd := d.isLt
  have hsize := rasMax_le hg
  simp only [RasAccess, szField_toNat, htRsvField_toNat, addrField_toNat] at h
  have hoff : BitVec.ofNat 22 ((addrField d).toNat - 0x400000) = d.extractLsb' 0 22 := by
    apply BitVec.eq_of_toNat_eq
    simp only [BitVec.toNat_ofNat, addrField_toNat, BitVec.extractLsb'_toNat, Nat.shiftRight_zero]
    omega
  simp only [hoff, wField_eq, decide_eq_true_eq, decodeAccess_eq_ok]
  split
  · exact .inr (.inr (.inr (.inr (.inr ⟨by omega, rfl, by omega⟩))))
  · exact .inr (.inr (.inr (.inr (.inl ⟨by omega, rfl, by omega⟩))))

/-- Nothing but the three kinds of access decodes (R72, R77, R111). -/
theorem legalAccess_of_decodeAccess {g : Nat} {d : Desc} {i : Instr}
    (h : decodeAccess g d = .ok i) : RegisterAccess d ∨ BufAccess g d ∨ RasAccess g d := by
  simp only [RegisterAccess, BufAccess, RasAccess, szField_toNat, htRsvField_toNat,
    addrField_toNat]
  obtain ⟨hm, r, -, hr⟩ | ⟨hm, r, -, hr⟩ | ⟨hm, -, hlt⟩ | ⟨hm, -, hlt⟩ | ⟨hm, -, hlt⟩ |
    ⟨hm, -, hlt⟩ := decodeAccess_eq_ok.mp h
  case inl | inr.inl =>
    have := r.offset_lt
    exact .inl (by omega)
  case inr.inr.inl | inr.inr.inr.inl => exact .inr (.inl (by omega))
  case inr.inr.inr.inr.inl | inr.inr.inr.inr.inr => exact .inr (.inr (by omega))

/-- An access of none of the three kinds is a bus error (R78). -/
theorem decodeAccess_of_not_legalAccess {g : Nat} {d : Desc}
    (h : ¬ RegisterAccess d ∧ ¬ BufAccess g d ∧ ¬ RasAccess g d) :
    decodeAccess g d = .error .busError := by
  obtain ⟨hreg, hbuf, hras⟩ := h
  cases hd : decodeAccess g d with
  | error e => rw [decodeAccess_error hd]
  | ok i =>
    obtain h | h | h := legalAccess_of_decodeAccess hd
    · exact absurd h hreg
    · exact absurd h hbuf
    · exact absurd h hras

/-! ### The step that takes an access -/

theorem step_of_decodeAccess_ok {s : State} {a : Access} {rest : List Input} {i : Instr}
    (hin : s.inputs = .access a :: rest) (hd : decodeAccess s.gMax a.desc = .ok i) :
    step s = exec i (beginAccess a rest s) := by
  simp [step, fetch, fetchAccess, hin, hd]

/-- A write that does not decode is a bus error (R78). -/
theorem step_of_undecodable_write {s : State} {a : Access} {rest : List Input} {e : DecodeError}
    (hin : s.inputs = .access a :: rest) (hd : decodeAccess s.gMax a.desc = .error e)
    (hw : wField a.desc = true) : step s = .next (recordError .bus (beginAccess a rest s)) := by
  simp [step, fetch, fetchAccess, hin, hd, hw]

/-- A read that does not decode is a bus error that returns 0 (R78). -/
theorem step_of_undecodable_read {s : State} {a : Access} {rest : List Input} {e : DecodeError}
    (hin : s.inputs = .access a :: rest) (hd : decodeAccess s.gMax a.desc = .error e)
    (hw : wField a.desc = false) :
    step s = .next { recordError .bus (beginAccess a rest s) with rdata := 0 } := by
  simp [step, fetch, fetchAccess, hin, hd, hw, busErrorRead]

end Sys2Proof.Machine
end

section
/-! SUPPORT. What each host operation answers (R73 to R76), as an equation, and the values of the registers
that are put together from fields (R33, R35, R42). -/

namespace Sys2Proof.Machine

/-! ### Register values -/

theorem cfgWord_toNat (s : State) :
    (cfgWord s).toNat = s.gdiv8.toNat + 2 ^ 8 * s.thresh.toNat := by
  simp only [cfgWord, toNat_append_eq, BitVec.toNat_ofNat]
  omega

theorem statusWord_toNat (s : State) :
    (statusWord s).toNat = s.err.toNat + 2 * s.done.toNat + 4 * s.hdr.toNat + 8 * s.extra.toNat
      + 16 * s.inc.toNat + 2 ^ 8 * s.mode.toNat := by
  have hmode : s.mode.toNat < 4 := by cases s.mode <;> decide
  simp only [statusWord, toNat_append_eq, BitVec.toNat_ofNat, BitVec.toNat_ofBool]
  omega

theorem errWord_toNat (s : State) : (errWord s).toNat = s.code.toNat := by
  have hcode : s.code.toNat < 256 := by cases s.code <;> decide
  simp only [errWord, toNat_append_eq, BitVec.toNat_ofNat]
  omega

/-- No register shows what the last read returned. -/
@[simp] theorem readReg_rdata (s : State) (v : Word) (r : Reg) :
    readReg { s with rdata := v } r = readReg s r := by
  cases r <;> rfl

/-! ### Register writes -/

theorem exec_regWr_arg (s : State) : exec (.regWr .arg) s = .next { s with arg := s.wdata } := rfl

theorem exec_regWr_cmd (s : State) : exec (.regWr .cmd) s = executeWord s.wdata s := rfl

/-- Every register but `ARG` and `CMD` is read-only (R74). -/
theorem exec_regWr_readOnly {r : Reg} (harg : r ≠ .arg) (hcmd : r ≠ .cmd) (s : State) :
    exec (.regWr r) s = .next (recordError .bus s) := by
  cases r with
  | arg => exact absurd rfl harg
  | cmd => exact absurd rfl hcmd
  | _ => rfl

@[simp] theorem recordError_recordError (c : ErrCode) (s : State) :
    recordError c (recordError c s) = recordError c s :=
  recordError_of_err (recordError_err c s) c

/-! ### Window accesses -/

theorem exec_bufRd_of_lt {s : State} {off : BitVec 20} (h : off.toNat < Config.bsMax s.gMax) :
    exec (.bufRd off) s = .next { s with rdata := (s.buf.read off.toNat).setWidth 64 } := if_pos h

theorem exec_rasRd_of_lt {s : State} {off : BitVec 22} (h : off.toNat < Config.rasMax s.gMax) :
    exec (.rasRd off) s = .next { s with rdata := (s.ras.read off.toNat).setWidth 64 } := if_pos h

theorem exec_bufWr_of_lt {s : State} {off : BitVec 20} (h : off.toNat < Config.bsMax s.gMax) :
    exec (.bufWr off) s =
      .next { s with buf := s.buf.write off.toNat (s.wdata.extractLsb' 0 8) } := if_pos h

theorem exec_rasWr_of_lt {s : State} {off : BitVec 22} (h : off.toNat < Config.rasMax s.gMax) :
    exec (.rasWr off) s =
      .next { s with ras := s.ras.write off.toNat (s.wdata.extractLsb' 0 8) } := if_pos h

theorem exec_bufWr_of_not_lt {s : State} {off : BitVec 20} (h : ¬ off.toNat < Config.bsMax s.gMax) :
    exec (.bufWr off) s = .next (recordError .bus s) := if_neg h

theorem exec_rasWr_of_not_lt {s : State} {off : BitVec 22} (h : ¬ off.toNat < Config.rasMax s.gMax) :
    exec (.rasWr off) s = .next (recordError .bus s) := if_neg h

/-- A window write stores data bits [7:0] (R110). -/
theorem read_write_dataByte (m : Memory) (a : Nat) (w : Word) :
    ((m.write a (w.extractLsb' 0 8)).read a).toNat = w.toNat % 256 := by
  rw [Memory.read_write, if_pos rfl]
  simp [BitVec.extractLsb'_toNat]

theorem read_write_of_ne (m : Memory) {a k : Nat} (b : Byte) (h : k ≠ a) :
    (m.write a b).read k = m.read k := by
  rw [Memory.read_write, if_neg h]

/-- Repeating a write gives the same list, not only the same contents, as the form is canonical. -/
theorem write_write {m : Memory} (h : m.wf) (a : Nat) (b : Byte) :
    (m.write a b).write a b = m.write a b := by
  have hw := Memory.wf_write h a b
  refine Memory.eq_of_read_eq (Memory.wf_write hw a b) hw fun k => ?_
  by_cases hk : k = a
  · simp [Memory.read_write, hk]
  · rw [read_write_of_ne _ _ hk]

/-- A cell of the current raster lies in the physical raster (R163). -/
theorem rasCell_lt_rasMax {s : State} {r c : Nat} (hs : Inv s) (hr : r < s.grid)
    (hc : c < s.grid) : r * s.grid + c < Config.rasMax s.gMax :=
  calc r * s.grid + c < (r + 1) * s.grid := by rw [Nat.add_mul, Nat.one_mul]; omega
    _ ≤ s.grid * s.grid := Nat.mul_le_mul_right _ hr
    _ ≤ Config.rasMax s.gMax := grid_sq_le_rasMax hs.gdiv8_le

end Sys2Proof.Machine
end

section
/-! SUPPORT. The statements on the host's accesses (20_memory.md). -/

namespace Sys2Proof.Machine

/-! ### Registers -/

/-- Settles O16: one equation of `REG_WR` per kind of register. -/
theorem registerWritesStoreExecuteOrRecordBus : Obligations.RegisterWritesStoreExecuteOrRecordBus := by
  unfold Obligations.RegisterWritesStoreExecuteOrRecordBus
  intro s
  exact ⟨exec_regWr_arg s, fun c h => executeWord_of_ok h s, fun e h => executeWord_of_error h s,
    fun r harg hcmd => exec_regWr_readOnly harg hcmd s⟩

/-- Settles O13: a read returns `readReg`, whose composed words have the values of their fields. -/
theorem registerReadsReturnTheirValue : Obligations.RegisterReadsReturnTheirValue := by
  unfold Obligations.RegisterReadsReturnTheirValue
  intro s r
  refine ⟨readReg s r, exec_regRd r s, ?_⟩
  cases r with
  | cfg => exact cfgWord_toNat s
  | status => exact statusWord_toNat s
  | err => exact errWord_toNat s
  | bsize => exact (readReg_bsize_toNat s).trans (blockSize_eq s)
  | _ => rfl

/-! ### Windows -/

/-- Settles O17: the decoder's `BUF` rows, and one byte read or written. -/
theorem bufWindowReadsAndWritesOneByte : Obligations.BufWindowReadsAndWritesOneByte := by
  unfold Obligations.BufWindowReadsAndWritesOneByte
  refine ⟨fun g d => decodeAccess_of_bufAccess, fun s off hoff => ⟨?_, ?_⟩⟩
  · exact ⟨_, exec_bufRd_of_lt hoff, BitVec.toNat_setWidth_of_le (by decide)⟩
  · exact ⟨_, exec_bufWr_of_lt hoff, rfl, read_write_dataByte _ _ _,
      fun a ha => read_write_of_ne _ _ ha⟩

/-- Settles O18: the decoder's `RAS` rows, among them those of the current raster's cells, and one cell read
or written. -/
theorem rasWindowReadsAndWritesOneCell : Obligations.RasWindowReadsAndWritesOneCell := by
  unfold Obligations.RasWindowReadsAndWritesOneCell
  refine ⟨fun g d => decodeAccess_of_rasAccess, fun s r c d hs hr hc hsz hrsv haddr => ?_,
    fun s off hoff => ⟨?_, ?_⟩⟩
  · have hcell := rasCell_lt_rasMax hs hr hc
    have hoff : (addrField d).toNat - 0x400000 = r * s.grid + c := by omega
    rw [← hoff]
    exact decodeAccess_of_rasAccess hs.gMax_legal ⟨hsz, hrsv, by omega, by omega⟩
  · exact ⟨_, exec_rasRd_of_lt hoff, BitVec.toNat_setWidth_of_le (by decide)⟩
  · exact ⟨_, exec_rasWr_of_lt hoff, rfl, read_write_dataByte _ _ _,
      fun a ha => read_write_of_ne _ _ ha⟩

/-! ### Bus errors -/

/-- A write to a read-only register decodes as such, and records `BUS` when it executes (R74). -/
theorem step_of_readOnlyWrite {s : State} {a : Access} {rest : List Input}
    (hin : s.inputs = .access a :: rest) (h : ReadOnlyWrite a.desc) :
    step s = .next (recordError .bus (beginAccess a rest s)) := by
  obtain ⟨hw, hreg, harg, hcmd⟩ := h
  obtain ⟨r, hr⟩ := exists_reg_of_registerAccess hreg
  have hd := decodeAccess_of_registerAccess (g := s.gMax) hreg hr
  rw [if_pos hw] at hd
  rw [step_of_decodeAccess_ok hin hd]
  refine exec_regWr_readOnly ?_ ?_ _
  · rintro rfl; exact harg hr
  · rintro rfl; exact hcmd hr

/-- Settles O10: an access of no legal kind does not decode, and a read-only register refuses its write. -/
theorem busErrorsRecordBusAndNothingElse : Obligations.BusErrorsRecordBusAndNothingElse := by
  unfold Obligations.BusErrorsRecordBusAndNothingElse
  intro s a rest _ hin hbus
  obtain hillegal | hro := hbus
  · have hd := decodeAccess_of_not_legalAccess hillegal
    exact ⟨step_of_undecodable_write hin hd, step_of_undecodable_read hin hd⟩
  · refine ⟨fun _ => step_of_readOnlyWrite hin hro, fun hw => ?_⟩
    simp [ReadOnlyWrite, hw] at hro

/-! ### Repetition -/

/-- A legal read answers a state that differs in the data returned only, and answers it again. -/
theorem exec_read_repeats {s : State} {i : Instr} (hwf : i.wellFormed s.gMax = true)
    (hi : (∃ r, i = .regRd r) ∨ (∃ off, i = .bufRd off) ∨ ∃ off, i = .rasRd off) :
    ∃ t, exec i s = .next t ∧ t = { s with rdata := t.rdata } ∧ exec i t = .next t := by
  obtain ⟨r, rfl⟩ | ⟨off, rfl⟩ | ⟨off, rfl⟩ := hi
  · exact ⟨_, exec_regRd r s, rfl, by simp only [exec_regRd, readReg_rdata]⟩
  · have hoff : off.toNat < Config.bsMax s.gMax := of_decide_eq_true hwf
    exact ⟨_, exec_bufRd_of_lt hoff, rfl, exec_bufRd_of_lt hoff⟩
  · have hoff : off.toNat < Config.rasMax s.gMax := of_decide_eq_true hwf
    exact ⟨_, exec_rasRd_of_lt hoff, rfl, exec_rasRd_of_lt hoff⟩

/-- A register write other than to `CMD` stores the same data again, or is the same bus error again. -/
theorem exec_regWr_repeats {r : Reg} (hcmd : r ≠ .cmd) (s : State) :
    ∃ t, exec (.regWr r) s = .next t ∧ exec (.regWr r) t = .next t := by
  by_cases harg : r = .arg
  · subst harg
    exact ⟨_, exec_regWr_arg s, rfl⟩
  · refine ⟨_, exec_regWr_readOnly harg hcmd s, ?_⟩
    rw [exec_regWr_readOnly harg hcmd, recordError_recordError]

theorem exec_bufWr_repeats {s : State} (h : s.buf.wf) (off : BitVec 20) :
    ∃ t, exec (.bufWr off) s = .next t ∧ exec (.bufWr off) t = .next t := by
  by_cases hoff : off.toNat < Config.bsMax s.gMax
  · refine ⟨_, exec_bufWr_of_lt hoff, ?_⟩
    rw [exec_bufWr_of_lt (by exact hoff)]
    simp only [write_write h]
  · refine ⟨_, exec_bufWr_of_not_lt hoff, ?_⟩
    rw [exec_bufWr_of_not_lt (by rwa [recordError_gMax]), recordError_recordError]

theorem exec_rasWr_repeats {s : State} (h : s.ras.wf) (off : BitVec 22) :
    ∃ t, exec (.rasWr off) s = .next t ∧ exec (.rasWr off) t = .next t := by
  by_cases hoff : off.toNat < Config.rasMax s.gMax
  · refine ⟨_, exec_rasWr_of_lt hoff, ?_⟩
    rw [exec_rasWr_of_lt (by exact hoff)]
    simp only [write_write h]
  · refine ⟨_, exec_rasWr_of_not_lt hoff, ?_⟩
    rw [exec_rasWr_of_not_lt (by rwa [recordError_gMax]), recordError_recordError]

/-- Settles O19: one lemma per kind of access, and what a read that does not decode leaves behind. -/
theorem readsHaveNoSideEffectsAndWritesRepeat : Obligations.ReadsHaveNoSideEffectsAndWritesRepeat := by
  unfold Obligations.ReadsHaveNoSideEffectsAndWritesRepeat
  refine ⟨fun s i => exec_read_repeats, fun s i hbuf hras hi => ?_,
    fun s c h => executeWord_of_ok h s, fun s a rest hw hin hd => ?_⟩
  · obtain ⟨r, hcmd, rfl⟩ | ⟨off, rfl⟩ | ⟨off, rfl⟩ := hi
    · exact exec_regWr_repeats hcmd s
    · exact exec_bufWr_repeats hbuf off
    · exact exec_rasWr_repeats hras off
  · exact ⟨_, step_of_undecodable_read hin hd hw, recordError_err _ _, by rw [recordError_eq]; rfl⟩

end Sys2Proof.Machine
end

section
/-! SUPPORT. The decoder of command words as an `↔` on the word's value, the mode check as a rejection outside
one mode, and the causes of the errors a command records; from them, the statements on the encoding of
commands (30_encoding.md). -/

namespace Sys2Proof

/-! ### Command words -/

theorem decodeCommand_encodeWord {c : Instr} (hc : encodeWidth c = 64) :
    decodeCommand (BitVec.ofNat 64 (encodeWord c)) = .ok c := by
  cases c with
  | regRd | regWr | bufRd | bufWr | rasRd | rasWr => cases hc
  | _ => rfl

/-- Everything the decoder of command words can answer: a word decodes to the command whose word it is, and
to nothing else (R102, R106). -/
theorem decodeCommand_eq_ok {w : Word} {c : Instr} :
    decodeCommand w = .ok c ↔ encodeWidth c = 64 ∧ w.toNat = encodeWord c := by
  refine ⟨fun h => ⟨decodeCommand_isCommand h, toNat_of_decodeCommand h⟩, fun ⟨hc, hw⟩ => ?_⟩
  rw [← decodeCommand_encodeWord hc, ← hw, BitVec.ofNat_toNat, BitVec.setWidth_eq]

/-- The opcodes from 0x0C on are unassigned (R101, R106). -/
theorem encodeWord_lt_of_command {c : Instr} (hc : encodeWidth c = 64) : encodeWord c < 0x0C := by
  cases c with
  | regRd | regWr | bufRd | bufWr | rasRd | rasWr => cases hc
  | _ => decide

/-- The illegal command words (R107). -/
theorem decodeCommand_error_of_illegal {w : Word} (h : w.toNat / 256 ≠ 0 ∨ 0x0C ≤ w.toNat % 256) :
    ∃ e, decodeCommand w = .error e := by
  cases hd : decodeCommand w with
  | error e => exact ⟨e, rfl⟩
  | ok c =>
    obtain ⟨hc, hw⟩ := decodeCommand_eq_ok.mp hd
    have := encodeWord_lt_of_command hc
    omega

end Sys2Proof

namespace Sys2Proof.Machine

/-! ### Modes -/

/-- A command whose rule runs behind the mode check, and which is legal in one mode only, is rejected
elsewhere. -/
theorem rejectedOutside_of_whenLegal {m : Mode} {i : Instr} (hl : ∀ m', legalIn i m' = (m' == m))
    (hx : ∀ s, ∃ run, exec i s = whenLegal i s run) : RejectedOutside m i := by
  intro s hm
  obtain ⟨run, hrun⟩ := hx s
  have hillegal : legalIn i s.mode = false := by simpa [hl] using hm
  rw [hrun, whenLegal_of_illegal hillegal]

/-- What must hold of command `c` in state `s` for it to record an error code (R241). -/
def CommandErrorCause (c : Instr) (s : State) : ErrCode → Prop
  | .mode => legalIn c s.mode = false
  | .badarg => c = .cfg ∧ cfgOperandBad s.gMax s.arg = true
  | .seq => c = .encFrame ∧ s.nblk.toNat ≤ s.bidx.toNat
  | .incompleteDec => c = .decEnd ∧ (s.hdr = false ∨ s.pos.toNat < s.fsize.toNat)
  | .incompleteEnc => c = .encEnd ∧ s.bidx.toNat < s.nblk.toNat
  | .none | .illegal | .bus => False

/-- With no error latched, what a command records is the code of its cause. -/
theorem commandErrorCause_of_recordError {c : Instr} {s t : State} {e : ErrCode} (he : s.err = false)
    (ht : t.code = (recordError e s).code) (h : CommandErrorCause c s e) :
    CommandErrorCause c s t.code := by
  simpa [ht, he] using h

/-- An error that a command records has its cause (R241). -/
theorem commandErrorCause_of_exec {c : Instr} {s t : State} (hc : encodeWidth c = 64)
    (h : exec c s = .next t) (he : s.err = false) (ht : t.err = true) :
    CommandErrorCause c s t.code := by
  have illegalMode {m : Mode} (hl : legalIn c s.mode = (s.mode == m)) (hm : s.mode ≠ m)
      (hrej : t = recordError .mode s) : CommandErrorCause c s t.code :=
    commandErrorCause_of_recordError (e := .mode) he (by rw [hrej]) (hl.trans (beq_false_of_ne hm))
  have noError (hkept : t.err = s.err) : CommandErrorCause c s t.code := by
    simp [hkept, he] at ht
  cases c with
  | nop | abort | b2r | r2b => exact noError (by cases h; rfl)
  | clrerr => exact noError (by cases h; exact he.symm)
  | cfg =>
    obtain ⟨hm, hrej⟩ | ⟨-, hbad, rfl⟩ | ⟨-, -, rfl⟩ := exec_cfg_cases h
    · exact illegalMode rfl hm hrej
    · exact commandErrorCause_of_recordError he rfl ⟨rfl, hbad⟩
    · exact noError rfl
  | encInit =>
    obtain ⟨hm, hrej⟩ | ⟨-, rfl⟩ := exec_encInit_cases h
    · exact illegalMode rfl hm hrej
    · exact noError rfl
  | decInit =>
    obtain ⟨hm, hrej⟩ | ⟨-, rfl⟩ := exec_decInit_cases h
    · exact illegalMode rfl hm hrej
    · exact noError rfl
  | encFrame =>
    obtain ⟨hm, hrej⟩ | ⟨-, hfull, rfl⟩ | ⟨-, -, -, rfl⟩ | ⟨-, -, rfl⟩ := exec_encFrame_cases h
    · exact illegalMode rfl hm hrej
    · exact commandErrorCause_of_recordError he rfl ⟨rfl, hfull⟩
    · exact noError rfl
    · exact noError rfl
  | decBlock =>
    obtain ⟨hm, hrej⟩ | ⟨-, rfl⟩ := exec_decBlock_cases h
    · exact illegalMode rfl hm hrej
    · exact noError (parsedBlock_sameOutsideSession s).err_eq
  | encEnd =>
    obtain ⟨hm, hrej⟩ | ⟨-, hshort, rfl⟩ | ⟨-, -, rfl⟩ := exec_encEnd_cases h
    · exact illegalMode rfl hm hrej
    · exact commandErrorCause_of_recordError he rfl ⟨rfl, hshort⟩
    · exact noError rfl
  | decEnd =>
    obtain ⟨hm, hrej⟩ | ⟨-, hshort, rfl⟩ | ⟨-, -, -, rfl⟩ := exec_decEnd_cases h
    · exact illegalMode rfl hm hrej
    · exact commandErrorCause_of_recordError he rfl ⟨rfl, hshort⟩
    · exact noError rfl
  | regRd | regWr | bufRd | bufWr | rasRd | rasWr => cases hc

/-- A command in a mode it is legal in records no `MODE`. -/
theorem code_ne_mode_of_legal {c : Instr} {s t : State} (hc : encodeWidth c = 64)
    (hl : legalIn c s.mode = true) (he : s.err = false) (h : exec c s = .next t)
    (ht : t.err = true) : t.code ≠ .mode := by
  intro hcode
  have hcause := commandErrorCause_of_exec hc h he ht
  rw [hcode] at hcause
  exact Bool.false_ne_true (hcause.symm.trans hl)

/-! ### The statements -/

/-- Settles O1: `decodeCommand_eq_ok`, read off for each instruction, and the table of legal modes. -/
theorem commandWordsAreTheOpcodeMap : Obligations.CommandWordsAreTheOpcodeMap := by
  unfold Obligations.CommandWordsAreTheOpcodeMap
  refine ⟨fun w i => ?_, ?_, ?_⟩
  · rw [decodeCommand_eq_ok]
    cases i <;> simp [encodeWidth, encodeWord]
  · simp [legalIn]
  · simp [legalIn]

/-- Settles O2: the seven commands run behind the mode check; in a legal mode `MODE` has no cause. -/
theorem wrongModeRecordsModeAndNothingElse : Obligations.WrongModeRecordsModeAndNothingElse := by
  unfold Obligations.WrongModeRecordsModeAndNothingElse
  refine ⟨?_, ?_, ?_, ?_, ?_, ?_, ?_, fun i s t hi => ?_⟩
  iterate 7 exact rejectedOutside_of_whenLegal (fun _ => rfl) fun _ => ⟨_, rfl⟩
  have hlegal : encodeWidth i = 64 ∧ legalIn i s.mode = true := by
    obtain hi | ⟨hi, hm⟩ | ⟨hi, hm⟩ | ⟨hi, hm⟩ := hi
    · exact ⟨by revert i; decide, commandWordsAreTheOpcodeMap.2.2 i hi s.mode⟩
    all_goals
      rw [hm]
      revert i
      decide
  exact code_ne_mode_of_legal hlegal.1 hlegal.2

/-- Settles O3: an illegal word does not decode, and so is rejected with `ILLEGAL`. -/
theorem illegalCommandWordsRecordIllegalOnly : Obligations.IllegalCommandWordsRecordIllegalOnly := by
  unfold Obligations.IllegalCommandWordsRecordIllegalOnly
  intro s hw
  obtain ⟨e, he⟩ := decodeCommand_error_of_illegal hw
  rw [exec_regWr_cmd, executeWord_of_error he]

end Sys2Proof.Machine
end

section
/-! SUPPORT. The encoding of a command as `EncodedAs` says it, the document's form of the block count, and the
equations of `ENC_INIT` and `ENC_END` in their legal modes; from them, the statements on the framer's encode
direction (40_splitter.md). -/

namespace Sys2Proof.Machine

/-! ### Encodings -/

/-- A command's word with a reserved bit set is no command (R102, R106). -/
theorem encodedAs_of_command {c : Instr} {op : Nat} (hc : encodeWidth c = 64)
    (hop : encodeWord c = op) : EncodedAs op c := by
  intro w hw
  refine ⟨fun hrsv => decodeCommand_eq_ok.mpr ⟨hc, by omega⟩, fun hrsv s => ?_⟩
  obtain ⟨e, he⟩ := decodeCommand_error_of_illegal (.inl hrsv)
  exact executeWord_of_error he s

/-! ### The block count -/

theorem blockCount_eq_one {f bs : Nat} (hbs : 8 ≤ bs) (hf : f ≤ bs - 8) : blockCount f bs = 1 :=
  Nat.div_eq_of_lt_le (by omega) (by omega)

/-- The document's count (R131): one header block, and the blocks of the payload beyond it. -/
theorem blockCount_eq_succ {f bs : Nat} (hbs : 8 ≤ bs) (hf : bs - 8 < f) :
    blockCount f bs = (f - (bs - 8) + bs - 1) / bs + 1 := by
  rw [← Nat.add_div_right _ (by omega), blockCount]
  congr 1
  omega

/-! ### Opening and closing an encode session -/

/-- `ENC_INIT` where it is legal: the registers it computes hold their values without wrapping. -/
theorem exec_encInit_of_idle {s : State} (hm : s.mode = .idle) (hg : 1 ≤ s.gdiv8.toNat) :
    ∃ t, exec .encInit s = .next t ∧
      t = { s with
        fsize := s.arg, nblk := t.nblk, bidx := 0, pos := 0, spanoff := 8, spanlen := t.spanlen
        done := false, hdr := false, extra := false, inc := false, mode := .enc } ∧
      t.nblk.toNat = blockCount s.arg.toNat s.blockSize ∧
      t.spanlen.toNat = min (s.blockSize - 8) s.arg.toNat := by
  have hcount := blockCount_le (eight_le_blockSize hg) s.arg.isLt
  have hlegal : legalIn .encInit s.mode = true := by rw [hm]; rfl
  exact ⟨_, whenLegal_of_legal hlegal _, rfl, ofNat64_toNat (by omega),
    ofNat64_toNat (lt_of_le_of_lt (Nat.min_le_right _ _) s.arg.isLt)⟩

theorem exec_encEnd_of_incomplete {s : State} (hm : s.mode = .enc) (h : s.bidx.toNat < s.nblk.toNat) :
    exec .encEnd s =
      .next { recordError .incompleteEnc s with inc := true, mode := .idle } := by
  have hlegal : legalIn .encEnd s.mode = true := by rw [hm]; rfl
  calc exec .encEnd s
      = .next { recordError .incompleteEnc { s with inc := true } with mode := .idle } :=
        (whenLegal_of_legal hlegal _).trans (if_pos h)
    _ = _ := by simp only [recordError_eq]

theorem exec_encEnd_of_complete {s : State} (hm : s.mode = .enc) (h : s.nblk.toNat ≤ s.bidx.toNat) :
    exec .encEnd s = .next { s with mode := .idle } := by
  have hlegal : legalIn .encEnd s.mode = true := by rw [hm]; rfl
  exact (whenLegal_of_legal hlegal _).trans (if_neg (Nat.not_lt.mpr h))

/-! ### The statements -/

/-- Settles O33: one lemma per case of the count, also at the document's block size. -/
theorem documentBlockCountIsTheHardwares : Obligations.DocumentBlockCountIsTheHardwares := by
  unfold Obligations.DocumentBlockCountIsTheHardwares
  refine ⟨fun f bs hbs => ⟨blockCount_eq_one hbs, blockCount_eq_succ hbs⟩, fun f => ?_,
    by decide⟩
  split
  · exact blockCount_eq_one (by decide) ‹_›
  · rw [blockCount_eq_succ (by decide) (by omega), Nat.add_comm]
    rfl

/-- Settles O30: `exec_encInit_of_idle`, and the block count and the span at the corner sizes. -/
theorem encInitOpensAnEncodeSession : Obligations.EncInitOpensAnEncodeSession := by
  unfold Obligations.EncInitOpensAnEncodeSession
  refine ⟨encodedAs_of_command rfl rfl, rejectedOutside_of_whenLegal (fun _ => rfl) fun _ => ⟨_, rfl⟩,
    fun s hm hg => ?_⟩
  obtain ⟨t, hexec, hframe, hnblk, hspan⟩ := exec_encInit_of_idle hm hg
  have hbs := eight_le_blockSize hg
  refine ⟨t, hexec, hframe, hnblk, hnblk ▸ blockCount_pos hbs, hspan, fun hzero => ⟨?_, ?_⟩,
    fun hbs8 => ?_, fun hmax hbs512 => ?_, fun hmax hbs8 => ?_⟩
  · apply BitVec.eq_of_toNat_eq
    rw [hnblk, hzero]
    exact blockCount_eq_one hbs (Nat.zero_le _)
  · apply BitVec.eq_of_toNat_eq
    rw [hspan, hzero]
    exact Nat.min_zero _
  · apply BitVec.eq_of_toNat_eq
    rw [hspan, hbs8]
    exact Nat.zero_min _
  · rw [hnblk, hmax, hbs512]
    rfl
  · rw [hnblk, hmax, hbs8]
    rfl

/-- Settles O32: one equation of `ENC_END` per case; `ENC_INIT` opens with a block to frame. -/
theorem encEndClosesTheEncodeSession : Obligations.EncEndClosesTheEncodeSession := by
  unfold Obligations.EncEndClosesTheEncodeSession
  refine ⟨encodedAs_of_command rfl rfl, rejectedOutside_of_whenLegal (fun _ => rfl) fun _ => ⟨_, rfl⟩,
    fun s => exec_encEnd_of_incomplete, fun s => exec_encEnd_of_complete, fun s hm hg => ?_⟩
  obtain ⟨t, hexec, hframe, hnblk, -⟩ := exec_encInit_of_idle hm hg
  have hmode : t.mode = .enc := by rw [hframe]
  have hbidx : t.bidx = 0 := by rw [hframe]
  have hopen : t.bidx.toNat < t.nblk.toNat := by
    rw [hbidx, hnblk]
    exact blockCount_pos (eight_le_blockSize hg)
  exact ⟨t, _, hexec, exec_encEnd_of_incomplete hmode hopen, rfl, rfl⟩

end Sys2Proof.Machine
end

section
/-! SUPPORT. The serializer and its inverse, bit by bit and as functions of a whole block; from them, the
statements on R160 to R162 (41_mapper.md). -/

namespace Sys2Proof.Machine

/-! ### One byte -/

theorem ser8_getElem? (b : Byte) {k : Nat} (hk : k < 8) :
    (ser8 b)[k]? = some (b.getLsbD (7 - k)) := by
  simp [ser8, hk]

/-- The sum of R161 over eight bits fits a byte. -/
theorem deser8_toNat (s0 s1 s2 s3 s4 s5 s6 s7 : Bool) :
    (deser8 [s0, s1, s2, s3, s4, s5, s6, s7]).toNat = 2 ^ 7 * s0.toNat + 2 ^ 6 * s1.toNat
      + 2 ^ 5 * s2.toNat + 2 ^ 4 * s3.toNat + 2 ^ 3 * s4.toNat + 2 ^ 2 * s5.toNat
      + 2 * s6.toNat + s7.toNat := by
  have := s0.toNat_le; have := s1.toNat_le; have := s2.toNat_le; have := s3.toNat_le
  have := s4.toNat_le; have := s5.toNat_le; have := s6.toNat_le; have := s7.toNat_le
  simp only [deser8, List.foldl, BitVec.toNat_ofNat]
  omega

theorem deser8_ser8 (b : Byte) : deser8 (ser8 b) = b := by
  apply BitVec.eq_of_getLsbD_eq
  intro i hi
  have hbit := deser8_getLsbD (fun k => b.getLsbD (7 - k)) (k := 7 - i) (by omega)
  rwa [show 7 - (7 - i) = i by omega] at hbit

theorem ser8_deser8 {l : List Bool} (h : l.length = 8) : ser8 (deser8 l) = l := by
  have hl : l = (List.range 8).map fun k => l.getD k false := by
    apply List.ext_getElem (by simpa using h)
    intro k hk _
    simp [hk]
  calc ser8 (deser8 l)
      = ser8 (deser8 ((List.range 8).map fun k => l.getD k false)) := by rw [← hl]
    _ = (List.range 8).map fun k => l.getD k false :=
        List.map_congr_left fun k hk => deser8_getLsbD _ (List.mem_range.mp hk)
    _ = l := hl.symm

/-- Settles O36: one lemma per clause, the two inverses bit by bit from `deser8_getLsbD`. -/
theorem serializerIsMostSignificantFirst : Obligations.SerializerIsMostSignificantFirst := by
  unfold Obligations.SerializerIsMostSignificantFirst
  exact ⟨fun b => ⟨ser8_length b, fun _ => ser8_getElem? b⟩, deser8_toNat, deser8_ser8,
    fun _ => ser8_deser8⟩

/-! ### A block -/

/-- R162 with the position split into its byte and its place in it. -/
theorem bitAt_eight_mul_add (b : Nat → Byte) (j : Nat) {k : Nat} (hk : k < 8) :
    bitAt b (8 * j + k) = (b j).getLsbD (7 - k) := by
  rw [bitAt, show (8 * j + k) / 8 = j by omega, show (8 * j + k) % 8 = k by omega]

theorem flatMap_ser8_length (b : Nat → Byte) (n : Nat) :
    ((List.range n).flatMap fun j => ser8 (b j)).length = n * 8 := by
  simp

/-- Induction on the bytes: the last one holds the last eight positions. -/
theorem flatMap_ser8_getElem? (b : Nat → Byte) {n i : Nat} (hi : i < n * 8) :
    ((List.range n).flatMap fun j => ser8 (b j))[i]? = some (bitAt b i) := by
  induction n with
  | zero => omega
  | succ n ih =>
    rw [List.range_succ, List.flatMap_append, List.flatMap_singleton]
    have hlen := flatMap_ser8_length b n
    rcases Nat.lt_or_ge i (n * 8) with hlt | hge
    · rw [List.getElem?_append_left (by omega), ih hlt]
    · obtain ⟨k, rfl⟩ : ∃ k, i = 8 * n + k := ⟨i - 8 * n, by omega⟩
      rw [List.getElem?_append_right (by omega), hlen, show 8 * n + k - n * 8 = k by omega,
        ser8_getElem? _ (by omega), bitAt_eight_mul_add _ _ (by omega)]

/-- Settles O37: `grid_sq`, and item `i` of the concatenation by induction on the bytes. -/
theorem bitSequenceIsTheConcatenation : Obligations.BitSequenceIsTheConcatenation := by
  unfold Obligations.BitSequenceIsTheConcatenation
  exact ⟨fun s => (Nat.mul_comm _ _).trans (grid_sq s).symm, fun b n =>
    ⟨flatMap_ser8_length b n, fun _ hi => ⟨flatMap_ser8_getElem? b hi, rfl⟩⟩⟩

end Sys2Proof.Machine
end

section
/-! SUPPORT. What `B2R` leaves in each cell and `R2B` in each byte, said once; from it, the statements on the
raster-bit-mapper (41_mapper.md). -/

namespace Sys2Proof.Machine

/-! ### What the two commands leave -/

theorem exec_b2r_next (s : State) : ∃ t, exec .b2r s = .next t := ⟨_, rfl⟩

theorem exec_r2b_next (s : State) : ∃ t, exec .r2b s = .next t := ⟨_, rfl⟩

section
variable {s t : State}

/-- `B2R` writes nothing but `RAS`. -/
theorem frame_of_exec_b2r (h : exec .b2r s = .next t) : t = { s with ras := t.ras } := by
  rw [exec_b2r_cases h]

theorem read_ras_of_exec_b2r (h : exec .b2r s = .next t) (i : Nat) :
    t.ras.read i = if i < s.grid * s.grid then px (bitAt s.buf.read i) else s.ras.read i := by
  rw [exec_b2r_cases h, Memory.read_writeRange]
  simp

/-- `R2B` writes nothing but `BUF`. -/
theorem frame_of_exec_r2b (h : exec .r2b s = .next t) : t = { s with buf := t.buf } := by
  rw [exec_r2b_cases h]

theorem read_buf_of_exec_r2b (h : exec .r2b s = .next t) (j : Nat) :
    t.buf.read j =
      if j < s.blockSize then deser8 (thrBits s.thresh s.ras.read j) else s.buf.read j := by
  rw [exec_r2b_cases h, Memory.read_writeRange]
  simp

theorem wf_buf_of_exec_r2b (h : exec .r2b s = .next t) (hwf : s.buf.wf) : t.buf.wf := by
  rw [exec_r2b_cases h]
  exact Memory.wf_writeRange hwf _ _ _

end

/-! ### Pixels and bits -/

theorem px_eq_zero_or (b : Bool) : px b = 0 ∨ px b = 255 := by
  cases b
  · exact .inl rfl
  · exact .inr rfl

/-- Every legal threshold lies between the two pixel values (R33, R164, R170). -/
theorem thr_px {thresh : Byte} (h : thresh.toNat ≤ 254) (b : Bool) : thr thresh (px b) = b := by
  cases b
  · simp [thr, px]
  · simp [thr, px]
    omega

/-- The eight pixels of a block byte lie in the current raster. -/
theorem byteCell_lt {s : State} {j k : Nat} (hj : j < s.blockSize) (hk : k < 8) :
    8 * j + k < s.grid * s.grid := by
  rw [grid_sq]
  omega

theorem thrBits_congr {thresh : Byte} {p q : Nat → Byte} {j : Nat}
    (h : ∀ k < 8, p (8 * j + k) = q (8 * j + k)) : thrBits thresh p j = thrBits thresh q j :=
  List.map_congr_left fun k hk => congrArg (thr thresh) (h k (List.mem_range.mp hk))

/-- Pixels that stand for a block's bits threshold to the bits of its bytes. -/
theorem thrBits_px_bitAt {thresh : Byte} (h : thresh.toNat ≤ 254) (b : Nat → Byte) (j : Nat) :
    thrBits thresh (fun i => px (bitAt b i)) j = ser8 (b j) :=
  List.map_congr_left fun k hk => by
    rw [thr_px h, bitAt_eight_mul_add b j (List.mem_range.mp hk)]

/-- A raster of `G` rows has `G²` cells. -/
theorem rasCell_lt {g r c : Nat} (hr : r < g) (hc : c < g) : r * g + c < g * g :=
  calc r * g + c < (r + 1) * g := by rw [Nat.add_mul, Nat.one_mul]; omega
    _ ≤ g * g := Nat.mul_le_mul_right _ hr

/-- A row of the raster starts at a whole block byte, as `G` is a multiple of 8 (R18, R167). -/
theorem rasCell_eq (s : State) (r m k : Nat) :
    r * s.grid + 8 * m + k = 8 * (r * (s.grid / 8) + m) + k := by
  rw [State.grid, Nat.mul_div_cancel_left _ (by decide)]
  ring

/-! ### The statements -/

/-- Settles O38: the cells that `B2R` writes hold `px` of the block's bits, the others are kept. -/
theorem b2rMapsTheBlockToTheRaster : Obligations.B2rMapsTheBlockToTheRaster := by
  unfold Obligations.B2rMapsTheBlockToTheRaster
  refine ⟨encodedAs_of_command rfl rfl, fun s => ?_⟩
  obtain ⟨t, h⟩ := exec_b2r_next s
  refine ⟨t, h, frame_of_exec_b2r h, fun i hi => ?_, fun i hi => ?_⟩
  · rw [read_ras_of_exec_b2r h, if_pos hi]
    rfl
  · rw [read_ras_of_exec_b2r h, if_neg (Nat.not_lt.mpr hi)]

/-- Settles O39: the bytes that `R2B` writes are `deser8` of the thresholded pixels, the others are kept. -/
theorem r2bPacksTheThresholdedRaster : Obligations.R2bPacksTheThresholdedRaster := by
  unfold Obligations.R2bPacksTheThresholdedRaster
  refine ⟨encodedAs_of_command rfl rfl, fun s => ?_⟩
  obtain ⟨t, h⟩ := exec_r2b_next s
  refine ⟨t, h, frame_of_exec_r2b h, fun j hj k hk => ?_, fun j hj => ?_⟩
  · rw [read_buf_of_exec_r2b h, if_pos hj]
    exact deser8_getLsbD _ hk
  · rw [read_buf_of_exec_r2b h, if_neg (Nat.not_lt.mpr hj)]

/-- Settles O40: a row starts at a whole byte, so cell `8m + k` of it is bit `k` of the `m`-th byte on. -/
theorem rasterRowsHoldWholeBytes : Obligations.RasterRowsHoldWholeBytes := by
  unfold Obligations.RasterRowsHoldWholeBytes
  intro s r m k hr hm hk
  obtain ⟨t, h⟩ := exec_b2r_next s
  have hcell : r * s.grid + 8 * m + k < s.grid * s.grid := by
    rw [Nat.add_assoc]
    exact rasCell_lt hr (by omega)
  refine ⟨t, h, ?_⟩
  rw [read_ras_of_exec_b2r h, if_pos hcell, rasCell_eq, bitAt_eight_mul_add _ _ hk]

/-- Settles O41: every cell that `B2R` writes is a pixel of one bit. -/
theorem b2rOutputIsBinarized : Obligations.B2rOutputIsBinarized := by
  unfold Obligations.B2rOutputIsBinarized
  intro s i hi
  obtain ⟨t, h⟩ := exec_b2r_next s
  refine ⟨t, h, ?_⟩
  rw [read_ras_of_exec_b2r h, if_pos hi]
  exact px_eq_zero_or _

/-- `R2B` after `B2R` packs the byte that `B2R` spread over eight pixels. -/
theorem read_buf_of_exec_b2r_r2b {s t u : State} (hth : s.thresh.toNat ≤ 254)
    (hb : exec .b2r s = .next t) (hr : exec .r2b t = .next u) (j : Nat) :
    u.buf.read j = s.buf.read j := by
  have hframe := frame_of_exec_b2r hb
  have hbuf : t.buf = s.buf := by rw [hframe]
  have hthresh : t.thresh = s.thresh := by rw [hframe]
  have hbs : t.blockSize = s.blockSize := by rw [hframe]; rfl
  rw [read_buf_of_exec_r2b hr, hbuf, hthresh, hbs]
  split
  next hj =>
    have hpixel : ∀ k < 8, t.ras.read (8 * j + k) = px (bitAt s.buf.read (8 * j + k)) :=
      fun k hk => by rw [read_ras_of_exec_b2r hb, if_pos (byteCell_lt hj hk)]
    calc deser8 (thrBits s.thresh t.ras.read j)
        = deser8 (thrBits s.thresh (fun i => px (bitAt s.buf.read i)) j) :=
          congrArg deser8 (thrBits_congr hpixel)
      _ = s.buf.read j := by rw [thrBits_px_bitAt hth, deser8_ser8]
  next => rfl

/-- Settles O42: byte by byte, and as a list because both buffers are canonical. -/
theorem r2bUndoesB2r : Obligations.R2bUndoesB2r := by
  unfold Obligations.R2bUndoesB2r
  intro s hth
  obtain ⟨t, hb⟩ := exec_b2r_next s
  obtain ⟨u, hr⟩ := exec_r2b_next t
  have hread := read_buf_of_exec_b2r_r2b hth hb hr
  refine ⟨t, u, hb, hr, hread, fun hwf => Memory.eq_of_read_eq ?_ hwf hread⟩
  have hbuf : t.buf = s.buf := by rw [frame_of_exec_b2r hb]
  exact wf_buf_of_exec_r2b hr (hbuf ▸ hwf)

/-- Settles O43: both commands' results are written by the cells and bytes they read, and two states of one
grid read the same ones. -/
theorem mapperDependsOnlyOnWhatItReads : Obligations.MapperDependsOnlyOnWhatItReads := by
  unfold Obligations.MapperDependsOnlyOnWhatItReads
  constructor
  · intro s s' t t' hg hbuf h h' i hi
    have hgrid : s'.grid = s.grid := by rw [State.grid, State.grid, hg]
    have hbyte : s.buf.read (i / 8) = s'.buf.read (i / 8) := hbuf _ (by have := grid_sq s; omega)
    rw [read_ras_of_exec_b2r h, read_ras_of_exec_b2r h', hgrid, if_pos hi, if_pos hi, bitAt, bitAt,
      hbyte]
  · intro s s' t t' hg hth hras h h' j hj
    have hbs : s'.blockSize = s.blockSize := by rw [State.blockSize, State.blockSize, hg]
    have hpixel : ∀ k < 8, s.ras.read (8 * j + k) = s'.ras.read (8 * j + k) :=
      fun k hk => hras _ (byteCell_lt hj hk)
    rw [read_buf_of_exec_r2b h, read_buf_of_exec_r2b h', hbs, if_pos hj, if_pos hj, ← hth,
      thrBits_congr hpixel]

end Sys2Proof.Machine
end

section
/-! SUPPORT. What `DEC_INIT`, `DEC_BLOCK` and `DEC_END` answer where they are legal; the span of a parsed block
ends within the payload, so no register that `DEC_BLOCK` computes wraps. From them, the statements on the
framer's decode direction (42_joiner.md). -/

namespace Sys2Proof.Machine

/-! ### Opening and closing a decode session -/

theorem exec_decInit_of_idle {s : State} (hm : s.mode = .idle) :
    exec .decInit s = .next { s with
      fsize := 0, nblk := 0, bidx := 0, pos := 0, spanoff := 0, spanlen := 0
      done := false, hdr := false, extra := false, inc := false, mode := .dec } := by
  have hlegal : legalIn .decInit s.mode = true := by rw [hm]; rfl
  exact whenLegal_of_legal hlegal _

theorem exec_decEnd_of_incomplete {s : State} (hm : s.mode = .dec)
    (h : s.hdr = false ∨ s.pos.toNat < s.fsize.toNat) :
    exec .decEnd s =
      .next { recordError .incompleteDec s with inc := true, mode := .idle } := by
  have hlegal : legalIn .decEnd s.mode = true := by rw [hm]; rfl
  calc exec .decEnd s
      = .next { recordError .incompleteDec { s with inc := true } with mode := .idle } :=
        (whenLegal_of_legal hlegal _).trans (if_pos h)
    _ = _ := by simp only [recordError_eq]

theorem exec_decEnd_of_complete {s : State} (hm : s.mode = .dec) (hhdr : s.hdr = true)
    (h : s.fsize.toNat ≤ s.pos.toNat) : exec .decEnd s = .next { s with mode := .idle } := by
  have hlegal : legalIn .decEnd s.mode = true := by rw [hm]; rfl
  have hcomplete : ¬ (s.hdr = false ∨ s.pos.toNat < s.fsize.toNat) := by simp [hhdr, h]
  exact (whenLegal_of_legal hlegal _).trans (if_neg hcomplete)

/-! ### The parsed block -/

/-- Parsing leaves `POS` and `BIDX` to what follows it, and writes no `DONE`. -/
theorem parsedBlock_frame (s : State) :
    parsedBlock s = { s with
      fsize := (parsedBlock s).fsize, nblk := (parsedBlock s).nblk
      spanoff := (parsedBlock s).spanoff, spanlen := (parsedBlock s).spanlen
      hdr := (parsedBlock s).hdr, extra := (parsedBlock s).extra } := by
  unfold parsedBlock
  split
  · rfl
  · split <;> rfl

@[simp] theorem parsedBlock_pos (s : State) : (parsedBlock s).pos = s.pos := by
  rw [parsedBlock_frame]

@[simp] theorem parsedBlock_bidx (s : State) : (parsedBlock s).bidx = s.bidx := by
  rw [parsedBlock_frame]

section
variable {s : State}

theorem parsedBlock_header_fsize (h : s.bidx = 0) :
    (parsedBlock s).fsize.toNat = unbe64 s.buf.read := by
  rw [parsedBlock_header h]
  exact ofNat64_toNat (unbe64_lt _)

theorem parsedBlock_header_nblk (hs : Inv s) (h : s.bidx = 0) :
    (parsedBlock s).nblk.toNat = blockCount (unbe64 s.buf.read) s.blockSize := by
  have hcount := blockCount_le (eight_le_blockSize hs.gdiv8_pos) (unbe64_lt s.buf.read)
  rw [parsedBlock_header h]
  exact ofNat64_toNat (by omega)

theorem parsedBlock_header_spanlen (h : s.bidx = 0) :
    (parsedBlock s).spanlen.toNat = min (s.blockSize - 8) (unbe64 s.buf.read) := by
  rw [parsedBlock_header h]
  exact ofNat64_toNat (lt_of_le_of_lt (Nat.min_le_right _ _) (unbe64_lt _))

theorem parsedBlock_data_spanlen (h : s.bidx ≠ 0) (hp : s.pos.toNat < s.fsize.toNat) :
    (parsedBlock s).spanlen.toNat = min s.blockSize (s.fsize.toNat - s.pos.toNat) := by
  have := s.fsize.isLt
  rw [parsedBlock_data h hp]
  exact ofNat64_toNat (by omega)

/-- In a decode session the first block is the one before the header (R59 items 6 and 7). -/
theorem decodeBeforeHeader_of_bidx_eq_zero (hs : Inv s) (hm : s.mode = .dec) (h : s.bidx = 0) :
    DecodeBeforeHeader s := by
  cases hhdr : s.hdr with
  | false => exact hs.decode_before hm hhdr
  | true =>
    have hpos := (hs.decode_after hm hhdr).bidx_pos
    simp [h] at hpos

/-- The span of the parsed block ends within the payload. -/
theorem parsedBlock_span_le_fsize (hs : Inv s) (hm : s.mode = .dec) :
    s.pos.toNat + (parsedBlock s).spanlen.toNat ≤ (parsedBlock s).fsize.toNat := by
  by_cases h : s.bidx = 0
  · have hpos : s.pos.toNat = 0 := by rw [(decodeBeforeHeader_of_bidx_eq_zero hs hm h).pos_eq]; rfl
    rw [parsedBlock_header_spanlen h, parsedBlock_header_fsize h, hpos, Nat.zero_add]
    exact Nat.min_le_right _ _
  · by_cases hp : s.pos.toNat < s.fsize.toNat
    · rw [parsedBlock_data_spanlen h hp, parsedBlock_data h hp]
      dsimp only
      omega
    · rw [parsedBlock_extra h (Nat.le_of_not_lt hp)]
      exact hs.pos_le

/-- `DEC_BLOCK` where it is legal: what follows the parsing is the same for every block (R193, R199). -/
theorem exec_decBlock_of_dec (hs : Inv s) (hm : s.mode = .dec) :
    ∃ t, exec .decBlock s = .next t ∧
      t = { parsedBlock s with pos := t.pos, bidx := t.bidx, done := t.done } ∧
      t.pos.toNat = s.pos.toNat + (parsedBlock s).spanlen.toNat ∧
      t.bidx.toNat = min (s.bidx.toNat + 1) (2 ^ 64 - 1) ∧
      (t.done = true ↔ t.pos = (parsedBlock s).fsize) := by
  have hlegal : legalIn .decBlock s.mode = true := by rw [hm]; rfl
  have hspan := parsedBlock_span_le_fsize hs hm
  have hfsize := (parsedBlock s).fsize.isLt
  have hpos : (BitVec.ofNat 64 (s.pos.toNat + (parsedBlock s).spanlen.toNat)).toNat
      = s.pos.toNat + (parsedBlock s).spanlen.toNat := ofNat64_toNat (by omega)
  refine ⟨_, whenLegal_of_legal hlegal _, rfl, ?_, ?_, ?_⟩
  · rw [parsedBlock_pos, hpos]
  · rw [parsedBlock_bidx]
    exact ofNat64_toNat (by omega)
  · rw [parsedBlock_pos, decide_eq_true_eq, ← BitVec.toNat_inj, hpos]

end

/-! ### The statements -/

/-- Settles O44: the equation of `DEC_INIT` where it is legal, run from reset. -/
theorem decInitOpensADecodeSession : Obligations.DecInitOpensADecodeSession := by
  unfold Obligations.DecInitOpensADecodeSession
  exact ⟨encodedAs_of_command rfl rfl,
    rejectedOutside_of_whenLegal (fun _ => rfl) fun _ => ⟨_, rfl⟩,
    fun _ => exec_decInit_of_idle, _, _, exec_decInit_of_idle rfl, exec_regRd .status _, rfl⟩

/-- Settles O45: the three kinds of block by their parsing, and `exec_decBlock_of_dec` for what follows. -/
theorem decBlockAcceptsTheBlock : Obligations.DecBlockAcceptsTheBlock := by
  unfold Obligations.DecBlockAcceptsTheBlock
  refine ⟨encodedAs_of_command rfl rfl, rejectedOutside_of_whenLegal (fun _ => rfl) fun _ => ⟨_, rfl⟩,
    fun s hs hm => ?_⟩
  obtain ⟨t, hexec, hframe, hpos, hbidx, hdone⟩ := exec_decBlock_of_dec hs hm
  have hfsize : t.fsize = (parsedBlock s).fsize := by rw [hframe]
  have hnblk : t.nblk = (parsedBlock s).nblk := by rw [hframe]
  have hspanlen : t.spanlen = (parsedBlock s).spanlen := by rw [hframe]
  refine ⟨t, hexec, ?_, fun h => ?_, fun h hp => ?_, fun h hp => ?_, hspanlen ▸ hpos, hbidx,
    hfsize ▸ hdone⟩
  · rw [hframe, parsedBlock_frame]
  · have hsize := parsedBlock_header_fsize h
    rw [hfsize, hnblk, hspanlen, parsedBlock_header_nblk hs h, parsedBlock_header_spanlen h, hsize,
      hframe, parsedBlock_header h]
    exact ⟨unbe64_eq _, rfl, rfl, rfl, rfl, rfl⟩
  · rw [hspanlen, parsedBlock_data_spanlen h hp, hframe, parsedBlock_data h hp]
    exact ⟨rfl, rfl, rfl, rfl, rfl, rfl⟩
  · rw [hframe, parsedBlock_extra h hp]
    exact ⟨rfl, rfl, rfl, rfl, rfl, rfl⟩

/-- Settles O46: one equation of `DEC_END` per case. -/
theorem decEndClosesTheDecodeSession : Obligations.DecEndClosesTheDecodeSession := by
  unfold Obligations.DecEndClosesTheDecodeSession
  exact ⟨encodedAs_of_command rfl rfl,
    rejectedOutside_of_whenLegal (fun _ => rfl) fun _ => ⟨_, rfl⟩,
    fun _ => exec_decEnd_of_incomplete, fun _ => exec_decEnd_of_complete⟩

end Sys2Proof.Machine
end

section
/-! SUPPORT. What `NOP`, `CFG`, `ABORT` and `CLRERR` answer, as equations, with the operand of `CFG` in terms of
its value; from them, the statements on the control commands (43_control.md). -/

namespace Sys2Proof.Machine

/-! ### The operand of `CFG` -/

theorem argGdiv8_eq_ofNat (a : Word) : argGdiv8 a = BitVec.ofNat 8 (a.toNat % 256) :=
  BitVec.eq_of_toNat_eq (by simp [argGdiv8_toNat])

theorem argThresh_eq_ofNat (a : Word) : argThresh a = BitVec.ofNat 8 (a.toNat / 256 % 256) :=
  BitVec.eq_of_toNat_eq (by simp [argThresh_toNat])

/-- An operand that passes the four range checks of R221 is accepted. -/
theorem cfgOperandBad_eq_false {g : Nat} {a : Word} (hrsv : a.toNat / 65536 = 0)
    (hpos : 1 ≤ a.toNat % 256) (hle : a.toNat % 256 ≤ g / 8) (hthr : a.toNat / 256 % 256 ≠ 255) :
    cfgOperandBad g a = false := by
  rw [← Bool.not_eq_true, cfgOperandBad_iff]
  omega

/-! ### The commands -/

theorem exec_nop (s : State) : exec .nop s = .next s := rfl

/-- A rejected `CFG` (R221): there is no partial update. -/
theorem exec_cfg_of_rejected {s : State} (hm : s.mode = .idle)
    (hbad : cfgOperandBad s.gMax s.arg = true) :
    exec .cfg s = .next (recordError .badarg s) := by
  have hlegal : legalIn .cfg s.mode = true := by rw [hm]; rfl
  exact (whenLegal_of_legal hlegal _).trans (if_pos hbad)

theorem exec_abort (s : State) : exec .abort s = .next { s with mode := .idle } := rfl

/-- With no session open there is none to close (R223). -/
theorem exec_abort_of_idle {s : State} (hm : s.mode = .idle) : exec .abort s = .next s := by
  rw [exec_abort, ← hm]

theorem exec_clrerr (s : State) :
    exec .clrerr s = .next { s with err := false, code := .none } := rfl

/-- With nothing latched the code is 0 already (R42, R59), so `CLRERR` has no effect (R224). -/
theorem exec_clrerr_of_not_err {s : State} (hs : Inv s) (he : s.err = false) :
    exec .clrerr s = .next s := by
  have hcode : s.code = .none := hs.latch.mp he
  rw [exec_clrerr, ← he, ← hcode]

/-- An illegal command word leaves a latched error, and so the whole state, as it is (R107, R244). -/
theorem exec_regWr_cmd_of_illegal_latched {s : State} {e : DecodeError}
    (hd : decodeCommand s.wdata = .error e) (he : s.err = true) :
    exec (.regWr .cmd) s = .next s := by
  rw [exec_regWr_cmd, executeWord_of_error hd, recordError_of_err he]

/-! ### The statements -/

/-- Settles O27: `CFG` in `IDLE` by the four range checks, with both fields as parts of `ARG`'s value. -/
theorem cfgSetsGridAndThreshold : Obligations.CfgSetsGridAndThreshold := by
  unfold Obligations.CfgSetsGridAndThreshold
  refine ⟨encodedAs_of_command rfl rfl,
    rejectedOutside_of_whenLegal (fun _ => rfl) fun _ => ⟨_, rfl⟩, fun s hm => ⟨fun hbad => ?_, ?_⟩⟩
  · exact exec_cfg_of_rejected hm ((cfgOperandBad_iff _ _).mpr hbad)
  · intro hrsv hpos hle hthr
    rw [exec_cfg_of_accepted hm (cfgOperandBad_eq_false hrsv hpos hle hthr), argGdiv8_eq_ofNat,
      argThresh_eq_ofNat]

/-- Settles O26: the encoding, and the equation of `NOP`. -/
theorem nopChangesNothing : Obligations.NopChangesNothing := by
  unfold Obligations.NopChangesNothing
  exact ⟨encodedAs_of_command rfl rfl, exec_nop⟩

/-- Settles O28: the encoding, and the equation of `ABORT` in every mode and in `IDLE`. -/
theorem abortOnlyClosesTheSession : Obligations.AbortOnlyClosesTheSession := by
  unfold Obligations.AbortOnlyClosesTheSession
  exact ⟨encodedAs_of_command rfl rfl, exec_abort, fun _ => exec_abort_of_idle⟩

/-- Settles O29: the equation of `CLRERR`, and the illegal word that a reserved bit makes of it. -/
theorem clrerrOnlyClearsTheLatch : Obligations.ClrerrOnlyClearsTheLatch := by
  unfold Obligations.ClrerrOnlyClearsTheLatch
  refine ⟨encodedAs_of_command rfl rfl, exec_clrerr, fun _ => exec_clrerr_of_not_err,
    fun s _ hrsv he => ?_⟩
  obtain ⟨e, hd⟩ := decodeCommand_error_of_illegal (.inl hrsv)
  exact exec_regWr_cmd_of_illegal_latched hd he

end Sys2Proof.Machine
end

section
/-! SUPPORT. That `ENC_INIT` clears `STATUS.INC` whatever `GDIV8` is; from it and the equations of
`ENC_END`, `DEC_END` and `DEC_INIT`, the statements on the first-error latch and on incomplete sessions
(60_exceptions.md). -/

namespace Sys2Proof.Machine

/-- `ENC_INIT` clears `STATUS.INC` (R135): unlike `exec_encInit_of_idle`, with no premise on `GDIV8`, since no
computed register is read. -/
theorem exec_encInit_clears_inc {s : State} (hm : s.mode = .idle) :
    ∃ t, exec .encInit s = .next t ∧ t.inc = false := by
  have hlegal : legalIn .encInit s.mode = true := by rw [hm]; rfl
  exact ⟨_, whenLegal_of_legal hlegal _, rfl⟩

/-! ### The statements -/

/-- Settles O25: one equation per END command where the session is incomplete, whose latch is the one
`recordError` leaves, and what each INIT command does to `STATUS.INC`. -/
theorem incompleteSessionsCompleteWithInc : Obligations.IncompleteSessionsCompleteWithInc := by
  unfold Obligations.IncompleteSessionsCompleteWithInc
  refine ⟨fun s hm hshort => ?_, fun s hm hshort => ?_, fun s hm => ⟨?_, ?_⟩⟩
  · exact ⟨_, exec_encEnd_of_incomplete hm hshort, rfl, rfl, recordError_err _ s, recordError_code _ s⟩
  · exact ⟨_, exec_decEnd_of_incomplete hm hshort, rfl, rfl, recordError_err _ s, recordError_code _ s⟩
  · exact exec_encInit_clears_inc hm
  · exact ⟨_, exec_decInit_of_idle hm, rfl⟩

/-- Settles O20: the equation of `recordError` with no error latched, and with one latched. -/
theorem recordErrorKeepsTheFirst : Obligations.RecordErrorKeepsTheFirst := by
  unfold Obligations.RecordErrorKeepsTheFirst
  exact fun c _ => ⟨fun hclear => recordError_of_not_err hclear c,
    fun hlatched => recordError_of_err hlatched c⟩

end Sys2Proof.Machine
end

section
/-! SUPPORT. The decoder and the encoder are one table read in two directions: a word decodes to an instruction
exactly when it is that instruction's encoding and the build has the instruction. From it, the statements on
descriptors and on both formats (30_encoding.md). -/

namespace Sys2Proof

/-! ### Descriptors -/

theorem eq_extractLsb'_zero_iff {n : Nat} {off : BitVec n} {d : Desc} :
    off = d.extractLsb' 0 n ↔ off.toNat = d.toNat % 2 ^ n := by
  rw [← BitVec.toNat_inj, BitVec.extractLsb'_toNat, Nat.shiftRight_zero]

/-- Everything the decoder of descriptors can answer: a descriptor decodes to the host operation whose word
it is, if the build has it, and to nothing else (R110, R111). -/
theorem decodeAccess_eq_ok_iff_encodeWord {g : Nat} {d : Desc} {i : Instr} :
    decodeAccess g d = .ok i ↔
      encodeWidth i = 32 ∧ i.wellFormed g = true ∧ d.toNat = encodeWord i := by
  rw [decodeAccess_eq_ok]
  cases i with
  | regRd r | regWr r =>
    have hmod := r.offset_mod
    have hlt := r.offset_lt
    simp only [Instr.regRd.injEq, Instr.regWr.injEq, exists_eq_left', exists_false, reduceCtorEq,
      false_and, and_false, or_false, false_or, encodeWidth, Instr.wellFormed, encodeWord, true_and]
    omega
  | bufRd off | bufWr off | rasRd off | rasWr off =>
    have hoff := off.isLt
    simp only [Instr.bufRd.injEq, Instr.bufWr.injEq, Instr.rasRd.injEq, Instr.rasWr.injEq,
      eq_extractLsb'_zero_iff, exists_false, reduceCtorEq, false_and, and_false, or_false, false_or,
      encodeWidth, Instr.wellFormed, encodeWord, Config.bufBase, Config.rasBase, decide_eq_true_eq,
      true_and]
    omega
  | _ => simp [encodeWidth]

/-! ### Both formats -/

theorem toOption_eq_some {x : Except DecodeError Instr} {i : Instr} :
    x.toOption = some i ↔ x = .ok i := by
  cases x <;> simp [Except.toOption]

theorem decodeBits_command_eq_some {g w : Nat} {i : Instr} (hw : w < 2 ^ 64) :
    decodeBits g 64 w = some i ↔ encodeWidth i = 64 ∧ w = encodeWord i := by
  rw [decodeBits, if_pos ⟨rfl, hw⟩, toOption_eq_some, decodeCommand_eq_ok, BitVec.toNat_ofNat,
    Nat.mod_eq_of_lt hw]

theorem decodeBits_descriptor_eq_some {g w : Nat} {i : Instr} (hw : w < 2 ^ 32) :
    decodeBits g 32 w = some i ↔
      encodeWidth i = 32 ∧ i.wellFormed g = true ∧ w = encodeWord i := by
  rw [decodeBits, if_neg (by omega), if_pos ⟨rfl, hw⟩, toOption_eq_some,
    decodeAccess_eq_ok_iff_encodeWord, BitVec.toNat_ofNat, Nat.mod_eq_of_lt hw]

/-- Every build has every command. -/
theorem wellFormed_of_command {g : Nat} {c : Instr} (hc : encodeWidth c = 64) :
    c.wellFormed g = true := by
  cases c with
  | regRd | regWr | bufRd | bufWr | rasRd | rasWr => cases hc
  | _ => rfl

theorem encodeWord_lt_of_hostOp {i : Instr} (hi : encodeWidth i = 32) : encodeWord i < 2 ^ 32 :=
  lt_of_lt_of_eq (Laws.EncodeFits.of_hostOp hi) (congrArg (2 ^ ·) hi)

/-- An instruction has one of the two formats (R100, R110). -/
theorem encodeWidth_cases (i : Instr) : encodeWidth i = 64 ∨ encodeWidth i = 32 := by
  cases i with
  | regRd | regWr | bufRd | bufWr | rasRd | rasWr => exact .inr rfl
  | _ => exact .inl rfl

theorem decodeBits_encode {g : Nat} {i : Instr} (hwf : i.wellFormed g = true) :
    decodeBits g (encode i).1 (encode i).2 = some i := by
  obtain hi | hi := encodeWidth_cases i
  · have hw := encodeWord_lt_of_command hi
    rw [encode, hi]
    exact (decodeBits_command_eq_some (by omega)).mpr ⟨hi, rfl⟩
  · rw [encode, hi]
    exact (decodeBits_descriptor_eq_some (encodeWord_lt_of_hostOp hi)).mpr ⟨hi, hwf, rfl⟩

theorem encode_of_decodeBits {g nbits w : Nat} {i : Instr} (h : decodeBits g nbits w = some i) :
    encode i = (nbits, w) ∧ i.wellFormed g = true := by
  by_cases hcw : nbits = 64 ∧ w < 2 ^ 64
  · obtain ⟨rfl, hw⟩ := hcw
    obtain ⟨hi, rfl⟩ := (decodeBits_command_eq_some hw).mp h
    exact ⟨Prod.ext hi rfl, wellFormed_of_command hi⟩
  · by_cases hht : nbits = 32 ∧ w < 2 ^ 32
    · obtain ⟨rfl, hw⟩ := hht
      obtain ⟨hi, hwf, rfl⟩ := (decodeBits_descriptor_eq_some hw).mp h
      exact ⟨Prod.ext hi rfl, hwf⟩
    · rw [decodeBits, if_neg hcw, if_neg hht] at h
      cases h

end Sys2Proof

namespace Sys2Proof.Machine

/-! ### The statements -/

/-- Settles O5: the encoding of each format decodes, as its word fits the format's width. -/
theorem decodeOfEncodeIsTheInstruction : Obligations.DecodeOfEncodeIsTheInstruction := by
  unfold Obligations.DecodeOfEncodeIsTheInstruction
  exact fun g i _ hwf => decodeBits_encode hwf

/-- Settles O6: what decodes in either format is the word of its instruction. -/
theorem encodeOfDecodeIsTheWord : Obligations.EncodeOfDecodeIsTheWord := by
  unfold Obligations.EncodeOfDecodeIsTheWord
  exact fun g nbits w i => encode_of_decodeBits

/-- Every legal access decodes. -/
theorem decodeAccess_ok_of_legalAccess {g : Nat} {d : Desc} (hg : Config.LegalGMax g)
    (h : RegisterAccess d ∨ BufAccess g d ∨ RasAccess g d) : ∃ i, decodeAccess g d = .ok i := by
  obtain h | h | h := h
  · obtain ⟨r, hr⟩ := exists_reg_of_registerAccess h
    exact ⟨_, decodeAccess_of_registerAccess h hr⟩
  · exact ⟨_, decodeAccess_of_bufAccess hg h⟩
  · exact ⟨_, decodeAccess_of_rasAccess hg h⟩

/-- Settles O4: a row's fields put together are the encoding of its instruction, and only the legal accesses
decode. -/
theorem accessesAreClassifiedByTheirFields : Obligations.AccessesAreClassifiedByTheirFields := by
  unfold Obligations.AccessesAreClassifiedByTheirFields
  intro g d hg
  have hd := d.isLt
  have hbuf := bsMax_le hg
  have hras := rasMax_le hg
  refine ⟨fun r => ?_, fun r => ?_, fun off => ?_, fun off => ?_, fun off => ?_, fun off => ?_,
    fun h => ?_, decodeAccess_of_not_legalAccess⟩
  iterate 2
    have hmod := r.offset_mod
    have hlt := r.offset_lt
    simp only [decodeAccess_eq_ok_iff_encodeWord, encodeWidth, Instr.wellFormed, encodeWord,
      RegisterAccess, wField_eq, szField_toNat, htRsvField_toNat, addrField_toNat,
      decide_eq_true_eq, decide_eq_false_iff_not, true_and]
    omega
  iterate 4
    simp only [decodeAccess_eq_ok_iff_encodeWord, encodeWidth, Instr.wellFormed, encodeWord,
      Config.bufBase, Config.rasBase, BufAccess, RasAccess, wField_eq, szField_toNat,
      htRsvField_toNat, addrField_toNat, decide_eq_true_eq, decide_eq_false_iff_not, true_and]
    omega
  · have hnot : ¬ (RegisterAccess d ∨ BufAccess g d ∨ RasAccess g d) := fun hlegal => by
      obtain ⟨i, hi⟩ := decodeAccess_ok_of_legalAccess hg hlegal
      rw [hi] at h
      cases h
    simpa only [not_or] using hnot

/-- Settles O7: each word is one table look-up. -/
theorem sampleWordsDecode : Obligations.SampleWordsDecode := by
  unfold Obligations.SampleWordsDecode
  decide

/-! ### Steps -/

/-- Settles O8: the equation of the step that takes an access. -/
theorem stepRunsTheDecodedAccess : Obligations.StepRunsTheDecodedAccess := by
  unfold Obligations.StepRunsTheDecodedAccess
  exact fun s a rest i => step_of_decodeAccess_ok

/-- Settles O9: the descriptor is that of a `CMD` write, which executes its data. -/
theorem stepRunsTheCommandWritten : Obligations.StepRunsTheCommandWritten := by
  unfold Obligations.StepRunsTheCommandWritten
  intro s w rest c hin hc
  have hd : decodeAccess s.gMax 0xB0000030#32 = .ok (.regWr .cmd) :=
    decodeAccess_eq_ok_iff_encodeWord.mpr ⟨rfl, rfl, rfl⟩
  rw [step_of_decodeAccess_ok hin hd, exec_regWr_cmd]
  exact executeWord_of_ok hc _

/-- Settles O11: with no input pending nothing is fetched. -/
theorem stepWithoutInputChangesNothing : Obligations.StepWithoutInputChangesNothing := by
  unfold Obligations.StepWithoutInputChangesNothing
  intro s hin
  simp only [step, fetch, hin]

/-- The register at the offset of `CMD` is accessed in 8 bytes only, and no window holds that offset (R72). -/
theorem not_legalAccess_of_cmd_width {g : Nat} {d : Desc} (haddr : (addrField d).toNat = 0x30)
    (hsz : (szField d).toNat ≠ 3) : ¬ RegisterAccess d ∧ ¬ BufAccess g d ∧ ¬ RasAccess g d := by
  simp only [RegisterAccess, BufAccess, RasAccess]
  omega

/-- Settles O24: an illegal word is not executed, the mode is checked before a command's own rule, and a `CMD`
write of another width does not decode. -/
theorem onlyTheFirstFailingCheckIsRecorded : Obligations.OnlyTheFirstFailingCheckIsRecorded := by
  unfold Obligations.OnlyTheFirstFailingCheckIsRecorded
  obtain ⟨hcfg, -, -, hframe, -⟩ := wrongModeRecordsModeAndNothingElse
  refine ⟨illegalCommandWordsRecordIllegalOnly, fun s hm _ => hcfg s hm, fun s hm _ => hframe s hm,
    fun s a rest _ hin hw haddr hsz => ?_⟩
  have hd := decodeAccess_of_not_legalAccess (g := s.gMax) (not_legalAccess_of_cmd_width haddr hsz)
  exact step_of_undecodable_write hin hd hw

end Sys2Proof.Machine
end

section
/-! SUPPORT. Every instruction runs alike with any latch, so every instruction answers a state; and what a host
operation records. From it, the statements on errors that speak of every instruction (60_exceptions.md). -/

namespace Sys2Proof.Machine

/-! ### Any latch -/

/-- What an instruction other than a register read does with one latch it does with any other, but for the
latch (R250). -/
theorem exec_agreeButLatch {i : Instr} (hi : ∀ r, i ≠ .regRd r) (s : State) (e : Bool) (c : ErrCode) :
    AgreeButLatch (exec i s) (exec i (s.withLatch e c)) := by
  have busErrorRead : AgreeButLatch (.next (busErrorRead s)) (.next (busErrorRead (s.withLatch e c))) :=
    .next (by rw [Machine.busErrorRead, Machine.busErrorRead, recordError_eq, recordError_eq]; rfl)
  obtain hw | hw := encodeWidth_cases i
  · exact exec_command_agreeButLatch hw s e c
  cases i with
  | regRd r => exact absurd rfl (hi r)
  | regWr r =>
    by_cases harg : r = .arg
    · subst harg
      exact .next rfl
    by_cases hcmd : r = .cmd
    · subst hcmd
      rw [exec_regWr_cmd, exec_regWr_cmd]
      cases hd : decodeCommand s.wdata with
      | ok k =>
        rw [executeWord_of_ok hd, executeWord_of_ok (by exact hd)]
        exact exec_command_agreeButLatch (decodeCommand_isCommand hd) s e c
      | error x =>
        rw [executeWord_of_error hd, executeWord_of_error (by exact hd)]
        exact .recordError rfl .illegal
    · rw [exec_regWr_readOnly harg hcmd, exec_regWr_readOnly harg hcmd]
      exact .recordError rfl .bus
  | bufRd off | rasRd off => exact .ite (.next rfl) busErrorRead
  | bufWr off | rasWr off => exact .ite (.next rfl) (.recordError rfl .bus)
  | _ => cases hw

/-- Of the registers, `STATUS` and `ERR` alone show the latch. -/
theorem readReg_withLatch {r : Reg} (hstatus : r ≠ .status) (herr : r ≠ .err) (s : State) (e : Bool)
    (c : ErrCode) : readReg (s.withLatch e c) r = readReg s r := by
  cases r with
  | status => exact absurd rfl hstatus
  | err => exact absurd rfl herr
  | _ => rfl

/-- Settles O21: a register read returns the register, and every other instruction agrees but for the latch. -/
theorem latchedErrorDoesNotChangeExecution : Obligations.LatchedErrorDoesNotChangeExecution := by
  unfold Obligations.LatchedErrorDoesNotChangeExecution
  intro i s t e c h
  by_cases hi : ∃ r, i = .regRd r
  · obtain ⟨r, rfl⟩ := hi
    obtain rfl : { s with rdata := readReg s r } = t := Host.Outcome.next.inj h
    refine ⟨_, exec_regRd r _, rfl, fun hstatus herr => ?_⟩
    exact readReg_withLatch (fun hr => hstatus (hr ▸ rfl)) (fun hr => herr (hr ▸ rfl)) s e c
  · obtain ⟨u, t', hu, ht', hag⟩ := exec_agreeButLatch (fun r hr => hi ⟨r, hr⟩) s e c
    obtain rfl : u = t := Host.Outcome.next.inj (hu.symm.trans h)
    have hrdata : t'.rdata = u.rdata := by rw [hag]
    exact ⟨t', ht', hrdata ▸ hag, fun _ _ => hrdata⟩

/-! ### A next state -/

theorem exec_next (i : Instr) (s : State) : ∃ t, exec i s = .next t := by
  by_cases hi : ∃ r, i = .regRd r
  · obtain ⟨r, rfl⟩ := hi
    exact ⟨_, exec_regRd r s⟩
  · obtain ⟨t, -, ht, -⟩ := exec_agreeButLatch (fun r hr => hi ⟨r, hr⟩) s s.err s.code
    exact ⟨t, ht⟩

/-- Settles O12: no instruction faults or is refused, and a step that runs none answers a state too. -/
theorem everyStepAnswersANextState : Obligations.EveryStepAnswersANextState := by
  unfold Obligations.EveryStepAnswersANextState
  refine ⟨exec_next, fun s => ?_⟩
  rw [step]
  split
  · exact ⟨_, rfl⟩
  · exact exec_next _ _

/-! ### Causes -/

/-- A host operation other than a `CMD` write records `BUS` only: at a read-only register, or beyond a buffer
(R74, R78). -/
theorem busErrorCause_of_exec_hostOp {i : Instr} {s t : State} (hw : encodeWidth i = 32)
    (hi : i ≠ .regWr .cmd) (h : exec i s = .next t) (he : s.err = false) (ht : t.err = true) :
    t.code = .bus ∧ ((∃ r, r ≠ .arg ∧ r ≠ .cmd ∧ i = .regWr r) ∨ i.wellFormed s.gMax = false) := by
  have noError {P : Prop} (hkept : t.err = s.err) : P := by simp [hkept, he] at ht
  have hbus (hcode : t.code = (recordError .bus s).code) : t.code = .bus := by simpa [he] using hcode
  cases i with
  | regRd r => exact noError (by cases h; rfl)
  | regWr r =>
    have hcmd : r ≠ .cmd := fun hr => hi (hr ▸ rfl)
    obtain ⟨-, rfl⟩ | ⟨harg, rfl⟩ := exec_regWr_cases hcmd h
    · exact noError rfl
    · exact ⟨hbus rfl, .inl ⟨r, harg, hcmd, rfl⟩⟩
  | bufRd off =>
    obtain ⟨-, rfl⟩ | ⟨hoff, rfl⟩ := exec_bufRd_cases h
    · exact noError rfl
    · exact ⟨hbus rfl, .inr (decide_eq_false (Nat.not_lt.mpr hoff))⟩
  | rasRd off =>
    obtain ⟨-, rfl⟩ | ⟨hoff, rfl⟩ := exec_rasRd_cases h
    · exact noError rfl
    · exact ⟨hbus rfl, .inr (decide_eq_false (Nat.not_lt.mpr hoff))⟩
  | bufWr off =>
    obtain ⟨-, rfl⟩ | ⟨hoff, rfl⟩ := exec_bufWr_cases h
    · exact noError rfl
    · exact ⟨hbus rfl, .inr (decide_eq_false (Nat.not_lt.mpr hoff))⟩
  | rasWr off =>
    obtain ⟨-, rfl⟩ | ⟨hoff, rfl⟩ := exec_rasWr_cases h
    · exact noError rfl
    · exact ⟨hbus rfl, .inr (decide_eq_false (Nat.not_lt.mpr hoff))⟩
  | _ => cases hw

/-- The three ways an error comes to be recorded: by a command, by a bus error, or by an illegal word. -/
theorem error_cases_of_exec {i : Instr} {s t : State} (h : exec i s = .next t) (he : s.err = false)
    (ht : t.err = true) :
    CommandErrorCause (performed i s) s t.code ∨
    (t.code = .bus ∧ ((∃ r, r ≠ .arg ∧ r ≠ .cmd ∧ i = .regWr r) ∨ i.wellFormed s.gMax = false)) ∨
    (t.code = .illegal ∧ i = .regWr .cmd ∧ ∃ e, decodeCommand s.wdata = .error e) := by
  by_cases hi : i = .regWr .cmd
  · subst hi
    obtain ⟨c, -, hp, hc, hx⟩ | ⟨herror, -, rfl⟩ := exec_regWr_cmd_cases h
    · exact .inl (hp ▸ commandErrorCause_of_exec hc hx he ht)
    · exact .inr (.inr ⟨by simp [he], rfl, herror⟩)
  · obtain hw | hw := encodeWidth_cases i
    · rw [performed_of_ne hi]
      exact .inl (commandErrorCause_of_exec hw h he ht)
    · exact .inr (.inl (busErrorCause_of_exec_hostOp hw hi h he ht))

/-- Settles O23: the cause of each code by the kind of instruction that records it. -/
theorem errorCodesComeFromTheirCauses : Obligations.ErrorCodesComeFromTheirCauses := by
  unfold Obligations.ErrorCodesComeFromTheirCauses
  intro i s t h he ht
  obtain hcause | ⟨hcode, hcause⟩ | ⟨hcode, hcause⟩ := error_cases_of_exec h he ht
  · revert hcause
    cases t.code with
    | badarg => exact fun ⟨hcfg, hbad⟩ => ⟨hcfg, (cfgOperandBad_iff _ _).mp hbad⟩
    | none | illegal | bus => exact False.elim
    | mode | seq | incompleteDec | incompleteEnc => exact id
  · rw [hcode]
    exact hcause
  · rw [hcode]
    exact hcause

end Sys2Proof.Machine
end

section
/-! SUPPORT. What `ENC_FRAME` answers with a block left to frame: the bytes it writes, and session registers that do
not wrap, as the span ends within the payload. From it, the statements on `ENC_FRAME` (40_splitter.md). -/

namespace Sys2Proof.Machine

/-! ### The framed block -/

/-- Header byte `k` of R132 is byte `k` of the big-endian image of the size (R17). -/
theorem be64_eq_ofNat (f : Word) {k : Nat} (hk : k < 8) :
    be64 f k = BitVec.ofNat 8 (f.toNat / 256 ^ (7 - k)) :=
  BitVec.eq_of_toNat_eq (by rw [be64_toNat f hk, BitVec.toNat_ofNat])

/-- The header is written in front of the first block, and zeros from the end of the span on (R136). -/
theorem read_framedBuf {s : State} (hspan : s.bidx = 0 → s.spanoff = 8) (j : Nat) :
    (framedBuf s).read j =
      if s.bidx = 0 ∧ j < 8 then be64 s.fsize j
      else if s.spanoff.toNat + s.spanlen.toNat ≤ j ∧ j < s.blockSize then 0
      else s.buf.read j := by
  have hpad (p : Nat) : (p ≤ j ∧ j < p + (s.blockSize - p)) ↔ (p ≤ j ∧ j < s.blockSize) := by omega
  simp only [framedBuf, Memory.read_writeRange, hpad]
  by_cases h : s.bidx = 0
  · have hoff : s.spanoff.toNat = 8 := by rw [hspan h]; rfl
    by_cases hj : j < 8
    · rw [if_neg (by omega), if_pos h, Memory.read_writeRange, if_pos (by omega), if_pos ⟨h, hj⟩]
    · simp only [h, hj, if_true, Memory.read_writeRange, Nat.zero_le, Nat.zero_add, and_false, if_false]
      rfl
  · simp only [h, false_and, if_false]
    rfl

/-! ### The session -/

theorem one_le_toNat {w : Word} (h : w ≠ 0) : 1 ≤ w.toNat :=
  Nat.one_le_iff_ne_zero.mpr fun h0 => h (BitVec.eq_of_toNat_eq h0)

section
variable {s : State}

/-- In an encode session with a block left, the span ends within the payload, and within the next block's
part of it (R59 item 5). -/
theorem encode_pos_add_spanlen (hs : Inv s) (hm : s.mode = .enc) (hleft : s.bidx.toNat < s.nblk.toNat) :
    s.pos.toNat + s.spanlen.toNat = min s.fsize.toNat ((s.bidx.toNat + 1) * s.blockSize - 8) := by
  have he := hs.encode hm
  have hne : s.bidx ≠ s.nblk := fun h => by simp [h] at hleft
  have hbs := eight_le_blockSize hs.gdiv8_pos
  have hpos := he.pos_eq
  have hlen := he.span_len hne
  have hoff := he.span_off hne
  rw [Nat.add_mul, Nat.one_mul]
  by_cases h : s.bidx = 0
  · have hbidx : s.bidx.toNat = 0 := by rw [h]; rfl
    have hoff8 : s.spanoff.toNat = 8 := by rw [hoff, if_pos h]; rfl
    rw [hbidx, Nat.zero_mul] at hpos ⊢
    omega
  · have hbidx : 1 ≤ s.bidx.toNat := one_le_toNat h
    have hoff0 : s.spanoff.toNat = 0 := by rw [hoff, if_neg h]; rfl
    have hbidxbs : s.blockSize ≤ s.bidx.toNat * s.blockSize := Nat.le_mul_of_pos_left _ hbidx
    omega

/-- `ENC_FRAME` with a block left to frame (R136). -/
theorem exec_encFrame_of_left (hs : Inv s) (hm : s.mode = .enc) (hleft : s.bidx.toNat < s.nblk.toNat) :
    ∃ t, exec .encFrame s = .next t ∧
      t = { s with
        buf := framedBuf s, pos := t.pos, bidx := t.bidx, done := t.done, spanoff := 0
        spanlen := t.spanlen } ∧
      t.pos.toNat = s.pos.toNat + s.spanlen.toNat ∧
      t.bidx.toNat = s.bidx.toNat + 1 ∧
      (t.bidx = s.nblk → t.done = true ∧ t.spanlen = 0) ∧
      (t.bidx ≠ s.nblk → t.done = s.done ∧
        t.spanlen.toNat = min s.blockSize (s.fsize.toNat - t.pos.toNat)) := by
  have hend := encode_pos_add_spanlen hs hm hleft
  have hfsize := s.fsize.isLt
  have hnblk := s.nblk.isLt
  have hbs := blockSize_le s
  obtain ⟨t, h⟩ := exec_next .encFrame s
  obtain ⟨hne, -⟩ | ⟨-, hfull, -⟩ | ⟨-, -, hlast, rfl⟩ | ⟨-, hmore, rfl⟩ := exec_encFrame_cases h
  · exact absurd hm hne
  · omega
  all_goals
    have hpos : (BitVec.ofNat 64 (s.pos.toNat + s.spanlen.toNat)).toNat
        = s.pos.toNat + s.spanlen.toNat := ofNat64_toNat (by omega)
    have hbidx : (BitVec.ofNat 64 (s.bidx.toNat + 1)).toNat = s.bidx.toNat + 1 :=
      ofNat64_toNat (by omega)
    refine ⟨_, h, rfl, hpos, hbidx, ?_, ?_⟩
  · exact fun _ => ⟨rfl, rfl⟩
  · exact fun hne => absurd (BitVec.eq_of_toNat_eq (hbidx.trans hlast)) hne
  · exact fun heq => absurd (hbidx ▸ congrArg BitVec.toNat heq) (Nat.ne_of_lt hmore)
  · exact fun _ => ⟨rfl, by rw [hpos]; exact ofNat64_toNat (by omega)⟩

theorem exec_encFrame_of_full (hm : s.mode = .enc) (hfull : s.nblk.toNat ≤ s.bidx.toNat) :
    exec .encFrame s = .next (recordError .seq s) := by
  have hlegal : legalIn .encFrame s.mode = true := by rw [hm]; rfl
  exact (whenLegal_of_legal hlegal _).trans (if_pos hfull)

/-- In front of the first block the span begins behind the header, and elsewhere at the block's start. -/
theorem encode_spanoff (hs : Inv s) (hm : s.mode = .enc) (hleft : s.bidx.toNat < s.nblk.toNat) :
    s.spanoff = if s.bidx = 0 then 8 else 0 :=
  (hs.encode hm).span_off fun h => by simp [h] at hleft

/-- Past the first block, blocks remain exactly while payload remains (R137). -/
theorem encode_left_iff (hs : Inv s) (hm : s.mode = .enc) (hbidx : 1 ≤ s.bidx.toNat) :
    s.bidx.toNat < s.nblk.toNat ↔ s.pos.toNat < s.fsize.toNat := by
  have he := hs.encode hm
  have hbs := eight_le_blockSize hs.gdiv8_pos
  have hbidxbs : s.blockSize ≤ s.bidx.toNat * s.blockSize := Nat.le_mul_of_pos_left _ hbidx
  rw [he.nblk_eq, le_blockCount_iff hbs, he.pos_eq]
  omega

end

/-! ### The statements -/

/-- Settles O31: the equations of `ENC_FRAME` with every block framed and with one left. -/
theorem encFrameWritesHeaderAndPadding : Obligations.EncFrameWritesHeaderAndPadding := by
  unfold Obligations.EncFrameWritesHeaderAndPadding
  refine ⟨encodedAs_of_command rfl rfl, rejectedOutside_of_whenLegal (fun _ => rfl) fun _ => ⟨_, rfl⟩,
    fun s => exec_encFrame_of_full, fun s hs hm hleft => ?_⟩
  obtain ⟨t, h, hframe, hpos, hbidx, hlast, hmore⟩ := exec_encFrame_of_left hs hm hleft
  have hbuf : t.buf = framedBuf s := by rw [hframe]
  refine ⟨t, h, hbuf ▸ hframe, fun j => ?_, hpos, hbidx, hlast, hmore⟩
  rw [hbuf, read_framedBuf fun h0 => by rw [encode_spanoff hs hm hleft, if_pos h0]]
  split
  next hj => exact be64_eq_ofNat _ hj.2
  next => rfl

/-- Settles O34: `POS` and `NBLK` both come from `FSIZE`, `BIDX` and the block size. -/
theorem encFrameEndsWithThePayload : Obligations.EncFrameEndsWithThePayload := by
  unfold Obligations.EncFrameEndsWithThePayload
  intro s hs hm hbidx
  have hiff := encode_left_iff hs hm hbidx
  refine ⟨(hs.encode hm).pos_eq, hiff, fun hpos => exec_encFrame_of_full hm ?_⟩
  rw [← Nat.not_lt, hiff, hpos]
  exact Nat.lt_irrefl _

/-- Behind the header, the first block holds the payload's first bytes and padding (R132). -/
theorem read_framedBuf_header {s : State} {p : Nat → Byte} (hs : Inv s) (hm : s.mode = .enc)
    (hleft : s.bidx.toNat < s.nblk.toNat) (hspan : SpanHolds p s) (h : s.bidx = 0) {j : Nat}
    (hj : j < s.blockSize) : (framedBuf s).read j = headerBlock p s.fsize.toNat s.blockSize j := by
  have hoff8 : s.spanoff = 8 := by rw [encode_spanoff hs hm hleft, if_pos h]
  have hoff : s.spanoff.toNat = 8 := by rw [hoff8]; rfl
  have hbidx : s.bidx.toNat = 0 := by rw [h]; rfl
  have hpos := (hs.encode hm).pos_eq
  have hend := encode_pos_add_spanlen hs hm hleft
  rw [hbidx, Nat.zero_mul] at hpos
  rw [hbidx, Nat.zero_add, Nat.one_mul] at hend
  rw [read_framedBuf (fun _ => hoff8), headerBlock]
  by_cases hj8 : j < 8
  · rw [if_pos ⟨h, hj8⟩, if_pos hj8, be64_eq_ofNat _ hj8]
  rw [if_neg (fun hc => hj8 hc.2), if_neg hj8]
  by_cases hpad : s.spanoff.toNat + s.spanlen.toNat ≤ j
  · rw [if_pos ⟨hpad, hj⟩, if_neg (by omega)]
    rfl
  · rw [if_neg (fun hc => hpad hc.1), if_pos (by omega)]
    have hbyte := hspan (j - 8) (by omega)
    rwa [show s.spanoff.toNat + (j - 8) = j by omega, show s.pos.toNat + (j - 8) = j - 8 by omega]
      at hbyte

/-- A later block holds the payload's next bytes and padding (R133). -/
theorem read_framedBuf_data {s : State} {p : Nat → Byte} (hs : Inv s) (hm : s.mode = .enc)
    (hleft : s.bidx.toNat < s.nblk.toNat) (hspan : SpanHolds p s) (h : s.bidx ≠ 0) {j : Nat}
    (hj : j < s.blockSize) :
    (framedBuf s).read j = dataBlock p s.fsize.toNat s.blockSize s.bidx.toNat j := by
  have hoff : s.spanoff.toNat = 0 := by rw [encode_spanoff hs hm hleft, if_neg h]; rfl
  have hbidx : 1 ≤ s.bidx.toNat := one_le_toNat h
  have hbidxbs : s.blockSize ≤ s.bidx.toNat * s.blockSize := Nat.le_mul_of_pos_left _ hbidx
  have hbs := eight_le_blockSize hs.gdiv8_pos
  have hrest := (encode_left_iff hs hm hbidx).mp hleft
  have hpos := (hs.encode hm).pos_eq
  have hend := encode_pos_add_spanlen hs hm hleft
  rw [Nat.add_mul, Nat.one_mul] at hend
  have hstart : s.pos.toNat = s.bidx.toNat * s.blockSize - 8 := by omega
  rw [read_framedBuf (fun h0 => absurd h0 h), if_neg (fun hc => h hc.1), dataBlock, ← hstart]
  by_cases hpad : s.spanoff.toNat + s.spanlen.toNat ≤ j
  · rw [if_pos ⟨hpad, hj⟩, if_neg (by omega)]
    rfl
  · rw [if_neg (fun hc => hpad hc.1), if_pos (by omega)]
    have hbyte := hspan j (by omega)
    rwa [hoff, Nat.zero_add] at hbyte

/-- `ENC_FRAME` leaves the document's block in `BUF`. -/
theorem read_framedBuf_eq_documentBlock {s : State} {p : Nat → Byte} (hs : Inv s) (hm : s.mode = .enc)
    (hleft : s.bidx.toNat < s.nblk.toNat) (hspan : SpanHolds p s) {j : Nat} (hj : j < s.blockSize) :
    (framedBuf s).read j = documentBlock p s.fsize.toNat s.blockSize s.bidx.toNat j := by
  rw [documentBlock]
  split
  next h0 => exact read_framedBuf_header hs hm hleft hspan (BitVec.eq_of_toNat_eq h0) hj
  next h0 => exact read_framedBuf_data hs hm hleft hspan (fun h => h0 (congrArg BitVec.toNat h)) hj

/-- Settles O35: the framed buffer is the header block or a data block of the document. -/
theorem encFrameProducesTheDocumentsBlock : Obligations.EncFrameProducesTheDocumentsBlock := by
  unfold Obligations.EncFrameProducesTheDocumentsBlock
  intro s p hs hm hleft hspan
  obtain ⟨t, h, hframe, -⟩ := exec_encFrame_of_left hs hm hleft
  refine ⟨t, h, fun j hj => ?_⟩
  rw [hframe]
  exact read_framedBuf_eq_documentBlock hs hm hleft hspan hj

end Sys2Proof.Machine
end

section
/-! SUPPORT. What `DEC_BLOCK` does past the header, and that payload is missing exactly while blocks are; from it,
the statements on a decode session with the invariant (42_joiner.md). -/

namespace Sys2Proof.Machine

section
variable {s : State}

/-- Past the first block the header has been seen (R59 items 6 and 7). -/
theorem decodeAfterHeader_of_bidx_ne_zero (hs : Inv s) (hm : s.mode = .dec) (h : s.bidx ≠ 0) :
    s.hdr = true ∧ DecodeAfterHeader s := by
  cases hhdr : s.hdr with
  | false => exact absurd (hs.decode_before hm hhdr).bidx_eq h
  | true => exact ⟨rfl, hs.decode_after hm hhdr⟩

theorem bidx_ne_zero_of_hdr (hs : Inv s) (hm : s.mode = .dec) (hhdr : s.hdr = true) : s.bidx ≠ 0 := by
  intro h
  have hpos := (hs.decode_after hm hhdr).bidx_pos
  simp [h] at hpos

/-- After the header, payload is missing exactly while blocks are (R197). -/
theorem decode_missing_iff (hs : Inv s) (hm : s.mode = .dec) (hhdr : s.hdr = true) :
    s.pos.toNat < s.fsize.toNat ↔ s.bidx.toNat < s.nblk.toNat := by
  have hd := hs.decode_after hm hhdr
  have hbs := eight_le_blockSize hs.gdiv8_pos
  have hbidxbs : s.blockSize ≤ s.bidx.toNat * s.blockSize := Nat.le_mul_of_pos_left _ hd.bidx_pos
  rw [hd.nblk_eq, le_blockCount_iff hbs, hd.pos_eq]
  omega

/-- What `DEC_END` asks for, said by the block count (R196, R197). -/
theorem decode_incomplete_iff (hs : Inv s) (hm : s.mode = .dec) :
    (s.hdr = false ∨ s.pos.toNat < s.fsize.toNat) ↔ (s.hdr = false ∨ s.bidx.toNat < s.nblk.toNat) := by
  cases hhdr : s.hdr with
  | false => simp
  | true => simp [decode_missing_iff hs hm hhdr]

/-- A block past the first is no header: it leaves what the header said (R193, R199). -/
theorem parsedBlock_after_header (h : s.bidx ≠ 0) :
    (parsedBlock s).fsize = s.fsize ∧ (parsedBlock s).nblk = s.nblk ∧ (parsedBlock s).hdr = s.hdr ∧
      (parsedBlock s).spanoff = 0 := by
  by_cases hp : s.pos.toNat < s.fsize.toNat
  · rw [parsedBlock_data h hp]
    exact ⟨rfl, rfl, rfl, rfl⟩
  · rw [parsedBlock_extra h (Nat.le_of_not_lt hp)]
    exact ⟨rfl, rfl, rfl, rfl⟩

/-- The span of a parsed block is the rest of the payload, up to the end of the block (R193). -/
theorem parsedBlock_spanlen (h : s.bidx ≠ 0) :
    (parsedBlock s).spanlen.toNat = min s.blockSize (s.fsize.toNat - s.pos.toNat) := by
  by_cases hp : s.pos.toNat < s.fsize.toNat
  · exact parsedBlock_data_spanlen h hp
  · have hall := Nat.le_of_not_lt hp
    rw [parsedBlock_extra h hall, Nat.sub_eq_zero_of_le hall, Nat.min_zero]
    rfl

end

/-! ### The statements -/

/-- Settles O47: the header block's span from its own size, a later block's from the `POS` of the invariant. -/
theorem decodedSpansCoverThePayload : Obligations.DecodedSpansCoverThePayload := by
  unfold Obligations.DecodedSpansCoverThePayload
  intro s hs hm _
  have hbs := eight_le_blockSize hs.gdiv8_pos
  obtain ⟨t, hexec, hframe, -⟩ := exec_decBlock_of_dec hs hm
  have hspanoff : t.spanoff = (parsedBlock s).spanoff := by rw [hframe]
  have hspanlen : t.spanlen = (parsedBlock s).spanlen := by rw [hframe]
  have hfsize : t.fsize = (parsedBlock s).fsize := by rw [hframe]
  have hbuf : t.buf = s.buf := by rw [hframe, parsedBlock_frame]
  refine ⟨t, hexec, ?_, ?_, fun j => by rw [hbuf]⟩
  all_goals by_cases h : s.bidx = 0
  · have hbidx : s.bidx.toNat = 0 := by rw [h]; rfl
    rw [hspanoff, parsedBlock_header h, hbidx, Nat.zero_mul]
    rfl
  · have hbidx := one_le_toNat h
    have hbidxbs : s.blockSize ≤ s.bidx.toNat * s.blockSize := Nat.le_mul_of_pos_left _ hbidx
    rw [hspanoff, (parsedBlock_after_header h).2.2.2, Nat.max_eq_right (by omega), Nat.sub_self]
    rfl
  · have hbidx : s.bidx.toNat = 0 := by rw [h]; rfl
    rw [hspanlen, hfsize, parsedBlock_header_spanlen h, parsedBlock_header_fsize h, hbidx]
    omega
  · obtain ⟨-, hd⟩ := decodeAfterHeader_of_bidx_ne_zero hs hm h
    have hbidxbs : s.blockSize ≤ s.bidx.toNat * s.blockSize := Nat.le_mul_of_pos_left _ hd.bidx_pos
    rw [hspanlen, hfsize, parsedBlock_spanlen h, (parsedBlock_after_header h).1, hd.pos_eq, Nat.add_mul]
    omega

/-- Settles O48: `DEC_END` asks for missing payload, which after the header are missing blocks. -/
theorem decEndChecksTheBlockCount : Obligations.DecEndChecksTheBlockCount := by
  unfold Obligations.DecEndChecksTheBlockCount
  intro s hs hflags hm
  refine ⟨fun hhdr => ⟨decode_missing_iff hs hm hhdr, (hs.decode_after hm hhdr).nblk_eq⟩, ?_⟩
  have hinc : s.inc = false := hflags.inc_closed (by rw [hm]; decide)
  by_cases hshort : s.hdr = false ∨ s.pos.toNat < s.fsize.toNat
  · exact ⟨_, exec_decEnd_of_incomplete hm hshort,
      ⟨fun _ => (decode_incomplete_iff hs hm).mp hshort, fun _ => rfl⟩,
      fun _ => ⟨recordError_err _ _, fun he => by simp [he]⟩, fun h => by cases h⟩
  · obtain ⟨hhdr, hpos⟩ : s.hdr = true ∧ s.fsize.toNat ≤ s.pos.toNat := by simpa using hshort
    have hnotInc : s.inc ≠ true := by simp [hinc]
    exact ⟨_, exec_decEnd_of_complete hm hhdr hpos,
      ⟨fun h => absurd h hnotInc, fun h => absurd ((decode_incomplete_iff hs hm).mpr h) hshort⟩,
      fun h => absurd h hnotInc, fun _ => ⟨rfl, rfl⟩⟩

/-- Settles O49: past the header `BIDX` is not 0, and the saturating count never brings it there. -/
theorem decBlockParsesOneHeader : Obligations.DecBlockParsesOneHeader := by
  unfold Obligations.DecBlockParsesOneHeader
  intro s t hs hm hhdr h
  obtain ⟨u, hexec, hframe, -, hbidx, -⟩ := exec_decBlock_of_dec hs hm
  obtain rfl : u = t := Host.Outcome.next.inj (hexec.symm.trans h)
  obtain ⟨hfsize, hnblk, hhdr', -⟩ := parsedBlock_after_header (bidx_ne_zero_of_hdr hs hm hhdr)
  refine ⟨?_, ?_, ?_, fun h0 => ?_, fun hsat => ?_⟩
  · rw [hframe, ← hfsize]
  · rw [hframe, ← hnblk]
  · rw [hframe, ← hhdr, ← hhdr']
  · have hzero : u.bidx.toNat = 0 := by rw [h0]; rfl
    omega
  · apply BitVec.eq_of_toNat_eq
    rw [hbidx, hsat]
    rfl

end Sys2Proof.Machine
end

section
/-! SUPPORT. Which part of a buffer an instruction writes: a command writes within the current block or raster, a
window access within the physical buffer. From it, the statement on the reach of commands (10_state.md). -/

namespace Sys2Proof.Machine

/-- An instruction is the instruction it performs (R44, R100). -/
theorem exec_performed (i : Instr) (s : State) : exec (performed i s) s = exec i s := by
  obtain h | ⟨rfl, h⟩ := performed_cases i s
  · rw [h]
  · exact (executeWord_of_ok h s).symm

/-! ### Writes below a bound -/

/-- `m'` is `m` after writes below `n`: the form and every bound from `n` on are kept, and every byte from `n`
on. -/
structure Memory.WrittenBelow (n : Nat) (m m' : Memory) : Prop where
  wf : m.wf → m'.wf
  bounded : ∀ size, n ≤ size → m.bounded size → m'.bounded size
  read_eq : ∀ a, n ≤ a → m'.read a = m.read a

namespace Memory.WrittenBelow

variable {n n' : Nat} {m m' m'' : Memory}

theorem of_eq (h : m' = m) : WrittenBelow n m m' := by
  subst h
  exact ⟨id, fun _ _ => id, fun _ _ => rfl⟩

theorem trans (h : WrittenBelow n m m') (h' : WrittenBelow n m' m'') : WrittenBelow n m m'' where
  wf := h'.wf ∘ h.wf
  bounded size hsize := h'.bounded size hsize ∘ h.bounded size hsize
  read_eq a ha := (h'.read_eq a ha).trans (h.read_eq a ha)

theorem mono (h : WrittenBelow n m m') (hn : n ≤ n') : WrittenBelow n' m m' where
  wf := h.wf
  bounded size hsize := h.bounded size (hn.trans hsize)
  read_eq a ha := h.read_eq a (hn.trans ha)

theorem writeRange {lo k : Nat} (h : k ≠ 0 → lo + k ≤ n) (f : Nat → Byte) :
    WrittenBelow n m (m.writeRange lo k f) where
  wf hm := Memory.wf_writeRange hm lo k f
  bounded size hsize hm := Memory.bounded_writeRange hm (fun hk => (h hk).trans hsize) f
  read_eq a ha := by
    rw [Memory.read_writeRange, if_neg]
    omega

theorem write {a : Nat} (h : a < n) (b : Byte) : WrittenBelow n m (m.write a b) :=
  writeRange (fun _ => h) _

end Memory.WrittenBelow

open Memory (WrittenBelow)

/-! ### Which instructions write a buffer -/

namespace Effect

variable {c : Instr} {s t : State}

theorem buf_eq_or_writer (h : Effect c s t) :
    t.buf = s.buf ∨ c = .encFrame ∨ c = .r2b ∨ ∃ off, c = .bufWr off := by
  cases h with
  | block command => exact .inr (command.imp_right .inl)
  | bufWr _ off => exact .inr (.inr (.inr ⟨off, rfl⟩))
  | plain same => exact .inl same.buf_eq
  | error e same => exact .inl (same.buf_eq.trans (recordError_buf e s))
  | cfg | clrerr | raster | arg | rasWr => exact .inl rfl

theorem ras_eq_or_writer (h : Effect c s t) :
    t.ras = s.ras ∨ c = .b2r ∨ ∃ off, c = .rasWr off := by
  cases h with
  | raster => exact .inr (.inl rfl)
  | rasWr _ off => exact .inr (.inr ⟨off, rfl⟩)
  | plain same => exact .inl same.ras_eq
  | error e same => exact .inl (same.ras_eq.trans (recordError_ras e s))
  | block _ same => exact .inl same.ras_eq
  | cfg | clrerr | arg | bufWr => exact .inl rfl

end Effect

/-! ### What the commands write -/

section
variable {c i : Instr} {s t : State}

/-- The header and the padding lie in the block. -/
theorem framedBuf_writtenBelow (hg : 1 ≤ s.gdiv8.toNat) :
    WrittenBelow s.blockSize s.buf (framedBuf s) := by
  have hbs := eight_le_blockSize hg
  have header : WrittenBelow s.blockSize s.buf
      (if s.bidx = 0 then s.buf.writeRange 0 8 (be64 s.fsize) else s.buf) := by
    split
    · exact .writeRange (fun _ => by omega) _
    · exact .of_eq rfl
  exact header.trans (.writeRange (fun _ => by omega) _)

theorem buf_writtenBelow_of_exec_command (hg : 1 ≤ s.gdiv8.toNat) (hc : encodeWidth c = 64)
    (h : exec c s = .next t) : WrittenBelow s.blockSize s.buf t.buf := by
  obtain hbuf | rfl | rfl | ⟨off, rfl⟩ := (effect_of_exec_command hc h).buf_eq_or_writer
  · exact .of_eq hbuf
  · obtain ⟨-, rfl⟩ | ⟨-, -, rfl⟩ | ⟨-, -, -, rfl⟩ | ⟨-, -, rfl⟩ := exec_encFrame_cases h
    · exact .of_eq (recordError_buf _ _)
    · exact .of_eq (recordError_buf _ _)
    · exact framedBuf_writtenBelow hg
    · exact framedBuf_writtenBelow hg
  · rw [exec_r2b_cases h]
    exact .writeRange (fun _ => by omega) _
  · cases hc

theorem ras_writtenBelow_of_exec_command (hc : encodeWidth c = 64) (h : exec c s = .next t) :
    WrittenBelow (s.grid * s.grid) s.ras t.ras := by
  obtain hras | rfl | ⟨off, rfl⟩ := (effect_of_exec_command hc h).ras_eq_or_writer
  · exact .of_eq hras
  · rw [exec_b2r_cases h]
    exact .writeRange (fun _ => by omega) _
  · cases hc

/-! ### What an instruction writes -/

theorem buf_writtenBelow_of_exec (hs : Inv s) (h : exec i s = .next t) :
    WrittenBelow (Config.bsMax s.gMax) s.buf t.buf := by
  have hsize := blockSize_le_bsMax hs.gMax_legal hs.gdiv8_le
  have heffect := effect_of_exec h
  rw [← exec_performed] at h
  obtain hbuf | hp | hp | ⟨off, hp⟩ := heffect.buf_eq_or_writer
  · exact .of_eq hbuf
  · rw [hp] at h
    exact (buf_writtenBelow_of_exec_command hs.gdiv8_pos rfl h).mono hsize
  · rw [hp] at h
    exact (buf_writtenBelow_of_exec_command hs.gdiv8_pos rfl h).mono hsize
  · rw [hp] at h
    obtain ⟨hoff, rfl⟩ | ⟨-, rfl⟩ := exec_bufWr_cases h
    · exact .write hoff _
    · exact .of_eq (recordError_buf _ _)

theorem ras_writtenBelow_of_exec (hs : Inv s) (h : exec i s = .next t) :
    WrittenBelow (Config.rasMax s.gMax) s.ras t.ras := by
  have heffect := effect_of_exec h
  rw [← exec_performed] at h
  obtain hras | hp | ⟨off, hp⟩ := heffect.ras_eq_or_writer
  · exact .of_eq hras
  · rw [hp] at h
    exact (ras_writtenBelow_of_exec_command rfl h).mono (grid_sq_le_rasMax hs.gdiv8_le)
  · rw [hp] at h
    obtain ⟨hoff, rfl⟩ | ⟨-, rfl⟩ := exec_rasWr_cases h
    · exact .write hoff _
    · exact .of_eq (recordError_ras _ _)

end

/-! ### The statement -/

/-- Settles O54: what a command writes of either buffer lies below the current size. -/
theorem commandsStayInsideTheCurrentBlock : Obligations.CommandsStayInsideTheCurrentBlock := by
  unfold Obligations.CommandsStayInsideTheCurrentBlock
  exact fun i s t hg hi h =>
    ⟨(buf_writtenBelow_of_exec_command hg hi h).read_eq, (ras_writtenBelow_of_exec_command hi h).read_eq⟩

end Sys2Proof.Machine
end

section
/-! SUPPORT. What an instruction can do to the session, said once: the session registers, the flags but for `ERR`,
and the mode. From it and `Effect`, the statements on which instruction writes what (10_state.md). -/

namespace Sys2Proof.Machine

/-- `t` is `s` in the session: its registers, the flags other than `ERR`, and the mode. -/
structure SameSession (s t : State) : Prop where
  fsize_eq : t.fsize = s.fsize
  nblk_eq : t.nblk = s.nblk
  bidx_eq : t.bidx = s.bidx
  pos_eq : t.pos = s.pos
  spanoff_eq : t.spanoff = s.spanoff
  spanlen_eq : t.spanlen = s.spanlen
  done_eq : t.done = s.done
  hdr_eq : t.hdr = s.hdr
  extra_eq : t.extra = s.extra
  inc_eq : t.inc = s.inc
  mode_eq : t.mode = s.mode

namespace SameSession

theorem recordError (e : ErrCode) (s : State) : SameSession s (recordError e s) := by
  rw [recordError_eq]
  constructor <;> rfl

theorem of_recordError {s t : State} {e : ErrCode} (h : t = Machine.recordError e s) : SameSession s t :=
  h ▸ recordError e s

end SameSession

/-- What an instruction that takes effect can do to the session, from `s` to `t`. -/
inductive SessionEffect (s t : State) : Instr → Prop where
  /-- Nothing: the instruction is none of the framer's, or is rejected. -/
  | kept {c : Instr} (same : SameSession s t) : SessionEffect s t c
  /-- It opens a session, with every flag clear (R135, R192). -/
  | opened {c : Instr} (command : (c = .encInit ∧ t.mode = .enc) ∨ (c = .decInit ∧ t.mode = .dec))
      (idle : s.mode = .idle) (done : t.done = false) (hdr : t.hdr = false) (extra : t.extra = false)
      (inc : t.inc = false) : SessionEffect s t c
  /-- `ENC_FRAME` with a block left (R136). -/
  | framed (enc : s.mode = .enc) (left : s.bidx.toNat < s.nblk.toNat)
      (done : s.done = true → t.done = true)
      (same : SameSession { s with
        bidx := t.bidx, pos := t.pos, spanoff := t.spanoff, spanlen := t.spanlen, done := t.done } t) :
      SessionEffect s t .encFrame
  /-- `DEC_BLOCK` in a decode session (R193). -/
  | parsed (dec : s.mode = .dec) (hdr : s.hdr = true → t.hdr = true)
      (extra : s.extra = true → t.extra = true) (inc : t.inc = s.inc) (mode : t.mode = s.mode) :
      SessionEffect s t .decBlock
  /-- It closes a session, which may be incomplete (R138, R196). -/
  | closed {c : Instr} (command : (c = .encEnd ∧ s.mode = .enc) ∨ (c = .decEnd ∧ s.mode = .dec))
      (inc : s.inc = true → t.inc = true)
      (same : SameSession { s with inc := t.inc, mode := .idle } t) : SessionEffect s t c
  /-- `ABORT` (R223). -/
  | aborted (same : SameSession { s with mode := .idle } t) : SessionEffect s t .abort

/-- Parsing a block clears neither `HDR` nor `EXTRA`. -/
theorem parsedBlock_flags (s : State) :
    (s.hdr = true → (parsedBlock s).hdr = true) ∧ (s.extra = true → (parsedBlock s).extra = true) := by
  unfold parsedBlock
  split
  · exact ⟨fun _ => rfl, id⟩
  · split
    · exact ⟨id, id⟩
    · exact ⟨id, fun _ => rfl⟩

theorem sessionEffect_of_exec_command {c : Instr} {s t : State} (hc : encodeWidth c = 64)
    (h : exec c s = .next t) : SessionEffect s t c := by
  cases c with
  | nop | clrerr | b2r | r2b => exact .kept (by cases h; constructor <;> rfl)
  | abort => exact .aborted (by cases h; constructor <;> rfl)
  | cfg =>
    obtain ⟨-, ht⟩ | ⟨-, -, ht⟩ | ⟨-, -, rfl⟩ := exec_cfg_cases h
    · exact .kept (.of_recordError ht)
    · exact .kept (.of_recordError ht)
    · exact .kept (by constructor <;> rfl)
  | encInit =>
    obtain ⟨-, ht⟩ | ⟨hm, rfl⟩ := exec_encInit_cases h
    · exact .kept (.of_recordError ht)
    · exact .opened (.inl ⟨rfl, rfl⟩) hm rfl rfl rfl rfl
  | decInit =>
    obtain ⟨-, ht⟩ | ⟨hm, rfl⟩ := exec_decInit_cases h
    · exact .kept (.of_recordError ht)
    · exact .opened (.inr ⟨rfl, rfl⟩) hm rfl rfl rfl rfl
  | encFrame =>
    obtain ⟨-, ht⟩ | ⟨-, -, ht⟩ | ⟨hm, hleft, -, rfl⟩ | ⟨hm, hmore, rfl⟩ := exec_encFrame_cases h
    · exact .kept (.of_recordError ht)
    · exact .kept (.of_recordError ht)
    · exact .framed hm hleft (fun _ => rfl) (by constructor <;> rfl)
    · exact .framed hm (by omega) id (by constructor <;> rfl)
  | decBlock =>
    obtain ⟨-, ht⟩ | ⟨hm, rfl⟩ := exec_decBlock_cases h
    · exact .kept (.of_recordError ht)
    · exact .parsed hm (parsedBlock_flags s).1 (parsedBlock_flags s).2 (by rw [parsedBlock_frame])
        (by rw [parsedBlock_frame])
  | encEnd =>
    obtain ⟨-, ht⟩ | ⟨hm, -, rfl⟩ | ⟨hm, -, rfl⟩ := exec_encEnd_cases h
    · exact .kept (.of_recordError ht)
    · exact .closed (.inl ⟨rfl, hm⟩) (fun _ => rfl)
        { SameSession.recordError .incompleteEnc s with inc_eq := rfl, mode_eq := rfl }
    · exact .closed (.inl ⟨rfl, hm⟩) id (by constructor <;> rfl)
  | decEnd =>
    obtain ⟨-, ht⟩ | ⟨hm, -, rfl⟩ | ⟨hm, -, -, rfl⟩ := exec_decEnd_cases h
    · exact .kept (.of_recordError ht)
    · exact .closed (.inr ⟨rfl, hm⟩) (fun _ => rfl)
        { SameSession.recordError .incompleteDec s with inc_eq := rfl, mode_eq := rfl }
    · exact .closed (.inr ⟨rfl, hm⟩) id (by constructor <;> rfl)
  | _ => cases hc

/-- A host operation other than a `CMD` write leaves the session alone. -/
theorem sameSession_of_exec_hostOp {i : Instr} {s t : State} (hw : encodeWidth i = 32)
    (hi : i ≠ .regWr .cmd) (h : exec i s = .next t) : SameSession s t := by
  have busErrorRead : SameSession s { recordError .bus s with rdata := 0 } :=
    { SameSession.recordError .bus s with }
  cases i with
  | regRd r => cases h; constructor <;> rfl
  | regWr r =>
    obtain ⟨-, rfl⟩ | ⟨-, ht⟩ := exec_regWr_cases (fun hr => hi (hr ▸ rfl)) h
    · constructor <;> rfl
    · exact .of_recordError ht
  | bufRd off =>
    obtain ⟨-, rfl⟩ | ⟨-, rfl⟩ := exec_bufRd_cases h
    · constructor <;> rfl
    · exact busErrorRead
  | rasRd off =>
    obtain ⟨-, rfl⟩ | ⟨-, rfl⟩ := exec_rasRd_cases h
    · constructor <;> rfl
    · exact busErrorRead
  | bufWr off =>
    obtain ⟨-, rfl⟩ | ⟨-, ht⟩ := exec_bufWr_cases h
    · constructor <;> rfl
    · exact .of_recordError ht
  | rasWr off =>
    obtain ⟨-, rfl⟩ | ⟨-, ht⟩ := exec_rasWr_cases h
    · constructor <;> rfl
    · exact .of_recordError ht
  | _ => cases hw

/-- Every instruction does to the session what the instruction it performs does. -/
theorem sessionEffect_of_exec {i : Instr} {s t : State} (h : exec i s = .next t) :
    SessionEffect s t (performed i s) :=
  exec_induction (P := fun c s t => SessionEffect s t c) h (fun _ => sessionEffect_of_exec_command)
    (fun hw hi => .kept (sameSession_of_exec_hostOp hw hi h)) (fun _ ht => .kept (.of_recordError ht))

/-! ### The read data -/

/-- An instruction is a command, or a host operation other than a `CMD` write, or the rejection of an illegal
word. -/
theorem exec_cases {i : Instr} {s t : State} (h : exec i s = .next t) :
    (∃ c, encodeWidth c = 64 ∧ exec c s = .next t) ∨ (encodeWidth i = 32 ∧ i ≠ .regWr .cmd) ∨
      t = recordError .illegal s := by
  by_cases hi : i = .regWr .cmd
  · subst hi
    obtain ⟨c, -, -, hc, hx⟩ | ⟨-, -, ht⟩ := exec_regWr_cmd_cases h
    · exact .inl ⟨c, hc, hx⟩
    · exact .inr (.inr ht)
  · exact (encodeWidth_cases i).imp (fun hw => ⟨i, hw, h⟩) (fun hw => .inl ⟨hw, hi⟩)

/-- A result that is a state with the read data of `s`. -/
def KeepsReadData (s : State) (x : Result) : Prop := ∃ t, x = .next t ∧ t.rdata = s.rdata

namespace KeepsReadData

variable {s : State} {x y : Result}

theorem next {t : State} (h : t.rdata = s.rdata) : KeepsReadData s (.next t) := ⟨t, rfl, h⟩

theorem recordError (e : ErrCode) : KeepsReadData s (.next (recordError e s)) :=
  next (recordError_rdata e s)

theorem ite {p : Prop} [Decidable p] (hx : KeepsReadData s x) (hy : KeepsReadData s y) :
    KeepsReadData s (if p then x else y) := by
  split
  · exact hx
  · exact hy

theorem whenLegal {i : Instr} (hx : KeepsReadData s x) : KeepsReadData s (whenLegal i s x) :=
  ite hx (recordError .mode)

end KeepsReadData

theorem exec_command_keepsReadData {c : Instr} (hc : encodeWidth c = 64) (s : State) :
    KeepsReadData s (exec c s) := by
  cases c with
  | nop | abort | clrerr | b2r | r2b => exact .next rfl
  | encInit | decInit => exact .whenLegal (.next rfl)
  | cfg => exact .whenLegal (.ite (.recordError .badarg) (.next rfl))
  | encFrame => exact .whenLegal (.ite (.recordError .seq) (.next rfl))
  | encEnd | decEnd => exact .whenLegal (.ite (.next (by simp)) (.next rfl))
  | decBlock => exact .whenLegal (.next (by rw [parsedBlock_frame]))
  | _ => cases hc

/-- Only reads return data (R73, R75, R76, R110). -/
theorem reader_of_rdata_ne {i : Instr} {s t : State} (h : exec i s = .next t) (hne : t.rdata ≠ s.rdata) :
    (∃ r, i = .regRd r) ∨ (∃ off, i = .bufRd off) ∨ ∃ off, i = .rasRd off := by
  have hwrites {x : Result} (hx : x = .next t) : ¬ KeepsReadData s x := fun ⟨u, hu, hkept⟩ =>
    hne (Host.Outcome.next.inj (hx.symm.trans hu) ▸ hkept)
  obtain ⟨c, hc, hx⟩ | ⟨hw, hi⟩ | ht := exec_cases h
  · exact absurd (exec_command_keepsReadData hc s) (hwrites hx)
  · cases i with
    | regRd r => exact .inl ⟨r, rfl⟩
    | bufRd off => exact .inr (.inl ⟨off, rfl⟩)
    | rasRd off => exact .inr (.inr ⟨off, rfl⟩)
    | bufWr off | rasWr off => exact absurd (.ite (.next rfl) (.recordError .bus)) (hwrites h)
    | regWr r =>
      obtain ⟨-, rfl⟩ | ⟨-, rfl⟩ := exec_regWr_cases (fun hr => hi (hr ▸ rfl)) h
      · exact absurd rfl hne
      · exact absurd (recordError_rdata _ _) hne
    | _ => cases hw
  · exact absurd (ht ▸ recordError_rdata _ _) hne

/-! ### The registers outside the session -/

namespace Effect

variable {c : Instr} {s t : State}

/-- No instruction changes the accesses pending or the data lines (log entry 2). -/
theorem port_eq (h : Effect c s t) : t.inputs = s.inputs ∧ t.wdata = s.wdata := by
  cases h with
  | plain same => exact ⟨same.inputs_eq, same.wdata_eq⟩
  | error e same => simp [same.inputs_eq, same.wdata_eq]
  | block _ same => exact ⟨same.inputs_eq, same.wdata_eq⟩
  | cfg | clrerr | raster | arg | bufWr | rasWr => exact ⟨rfl, rfl⟩

/-- Only a write to it writes `ARG` (R43). -/
theorem regWr_of_arg_ne (h : Effect c s t) (hne : t.arg ≠ s.arg) : c = .regWr .arg := by
  cases h with
  | arg => rfl
  | plain same => exact absurd same.arg_eq hne
  | error e same => exact absurd (same.arg_eq.trans (recordError_arg e s)) hne
  | block _ same => exact absurd same.arg_eq hne
  | cfg | clrerr | raster | bufWr | rasWr => exact absurd rfl hne

end Effect

/-! ### The session registers and the flags -/

namespace SessionEffect

variable {c : Instr} {s t : State}

/-- Only opening a session and `DEC_BLOCK` write `FSIZE` and `NBLK` (R45, R46). -/
theorem writer_of_size_ne (h : SessionEffect s t c) (hne : t.fsize ≠ s.fsize ∨ t.nblk ≠ s.nblk) :
    c = .encInit ∨ c = .decInit ∨ c = .decBlock := by
  cases h with
  | opened command => exact command.imp And.left (.inl ∘ And.left)
  | parsed => exact .inr (.inr rfl)
  | kept same => simp [same.fsize_eq, same.nblk_eq] at hne
  | framed _ _ _ same => simp [same.fsize_eq, same.nblk_eq] at hne
  | closed _ _ same => simp [same.fsize_eq, same.nblk_eq] at hne
  | aborted same => simp [same.fsize_eq, same.nblk_eq] at hne

/-- Only opening a session, `ENC_FRAME` and `DEC_BLOCK` write the other session registers (R47 to R50). -/
theorem writer_of_position_ne (h : SessionEffect s t c)
    (hne : t.bidx ≠ s.bidx ∨ t.pos ≠ s.pos ∨ t.spanoff ≠ s.spanoff ∨ t.spanlen ≠ s.spanlen) :
    c = .encInit ∨ c = .encFrame ∨ c = .decInit ∨ c = .decBlock := by
  cases h with
  | opened command => exact command.imp And.left (.inr ∘ .inl ∘ And.left)
  | framed => exact .inr (.inl rfl)
  | parsed => exact .inr (.inr (.inr rfl))
  | kept same => simp [same.bidx_eq, same.pos_eq, same.spanoff_eq, same.spanlen_eq] at hne
  | closed _ _ same => simp [same.bidx_eq, same.pos_eq, same.spanoff_eq, same.spanlen_eq] at hne
  | aborted same => simp [same.bidx_eq, same.pos_eq, same.spanoff_eq, same.spanlen_eq] at hne

end SessionEffect

/-! ### The statements -/

/-- Settles O53: of each register and buffer, the effects that write it. -/
theorem onlyTheirOwnInstructionsWriteEachRegister :
    Obligations.OnlyTheirOwnInstructionsWriteEachRegister := by
  unfold Obligations.OnlyTheirOwnInstructionsWriteEachRegister
  intro i s t h
  have heffect := effect_of_exec h
  have hsession := sessionEffect_of_exec h
  obtain ⟨hid, hcap⟩ := heffect.id_cap_eq
  obtain ⟨hinputs, hwdata⟩ := heffect.port_eq
  refine ⟨hid, hcap, hinputs, hwdata, fun hne => ?_, fun hne => (heffect.cfg_of_config_ne hne).1,
    hsession.writer_of_size_ne, hsession.writer_of_position_ne, fun hne => ?_, fun hne => ?_,
    reader_of_rdata_ne h⟩
  · exact eq_of_performed_hostOp (heffect.regWr_of_arg_ne hne) rfl
  · obtain hbuf | hp | hp | ⟨off, hp⟩ := heffect.buf_eq_or_writer
    · exact absurd hbuf hne
    · exact .inl hp
    · exact .inr (.inl hp)
    · exact .inr (.inr ⟨off, eq_of_performed_hostOp hp rfl⟩)
  · obtain hras | hp | ⟨off, hp⟩ := heffect.ras_eq_or_writer
    · exact absurd hras hne
    · exact .inl hp
    · exact .inr ⟨off, eq_of_performed_hostOp hp rfl⟩

end Sys2Proof.Machine
end

section
/-! SUPPORT. The flags of an open session: which commands set and clear them, and that every step keeps what they
say. From it, the statements on `STATUS` (10_state.md). -/

namespace Sys2Proof.Machine

/-! ### `DONE` in a decode session -/

section
variable {s t : State}

/-- With no payload missing past the first block, a further block leaves the session done. -/
theorem done_of_exec_decBlock_extra (hs : Inv s) (hm : s.mode = .dec) (hbidx : s.bidx ≠ 0)
    (hp : s.fsize.toNat ≤ s.pos.toNat) (h : exec .decBlock s = .next t) : t.done = true := by
  obtain ⟨u, hexec, -, hpos, -, hdone⟩ := exec_decBlock_of_dec hs hm
  obtain rfl : u = t := Host.Outcome.next.inj (hexec.symm.trans h)
  have hspan : (parsedBlock s).spanlen.toNat = 0 := by
    rw [parsedBlock_spanlen hbidx, Nat.sub_eq_zero_of_le hp, Nat.min_zero]
  have hfsize := (parsedBlock_after_header hbidx).1
  refine hdone.mpr (BitVec.eq_of_toNat_eq ?_)
  rw [hpos, hspan, hfsize]
  exact Nat.le_antisymm hs.pos_le hp

/-- A done decode session is past its first block and has no payload missing. -/
theorem decode_done (hs : Inv s) (hflags : SessionFlags s) (hm : s.mode = .dec) (hdone : s.done = true) :
    s.bidx ≠ 0 ∧ s.fsize.toNat ≤ s.pos.toNat := by
  cases hhdr : s.hdr with
  | false => simp [(hflags.before_header hm hhdr).1] at hdone
  | true =>
    refine ⟨bidx_ne_zero_of_hdr hs hm hhdr, ?_⟩
    rw [(hs.decode_after hm hhdr).done_iff.mp hdone]

/-- `DEC_BLOCK` does not clear `DONE` (R37). -/
theorem done_of_exec_decBlock (hs : Inv s) (hflags : SessionFlags s) (hm : s.mode = .dec)
    (hdone : s.done = true) (h : exec .decBlock s = .next t) : t.done = true := by
  obtain ⟨hbidx, hp⟩ := decode_done hs hflags hm hdone
  exact done_of_exec_decBlock_extra hs hm hbidx hp h

/-- `DEC_BLOCK` leaves `HDR` set, whichever block it takes. -/
theorem hdr_of_exec_decBlock (hs : Inv s) (hm : s.mode = .dec) (h : exec .decBlock s = .next t) :
    t.hdr = true := by
  obtain ⟨u, hexec, hframe, -⟩ := exec_decBlock_of_dec hs hm
  obtain rfl : u = t := Host.Outcome.next.inj (hexec.symm.trans h)
  have hhdr : u.hdr = (parsedBlock s).hdr := by rw [hframe]
  by_cases hbidx : s.bidx = 0
  · rw [hhdr, parsedBlock_header hbidx]
  · rw [hhdr, (parsedBlock_after_header hbidx).2.2.1]
    exact (decodeAfterHeader_of_bidx_ne_zero hs hm hbidx).1

/-- A decode session with an extra block is done (R37, R39). -/
theorem done_of_extra_of_exec_decBlock (hs : Inv s) (hflags : SessionFlags s) (hm : s.mode = .dec)
    (h : exec .decBlock s = .next t) (hextra : t.extra = true) : t.done = true := by
  obtain ⟨u, hexec, hframe, -⟩ := exec_decBlock_of_dec hs hm
  obtain rfl : u = t := Host.Outcome.next.inj (hexec.symm.trans h)
  have hparsed : u.extra = (parsedBlock s).extra := by rw [hframe]
  rw [hparsed] at hextra
  by_cases hbidx : s.bidx = 0
  · rw [parsedBlock_header hbidx] at hextra
    exact done_of_exec_decBlock hs hflags hm (hflags.extra_done hm hextra) h
  · by_cases hp : s.pos.toNat < s.fsize.toNat
    · rw [parsedBlock_data hbidx hp] at hextra
      exact done_of_exec_decBlock hs hflags hm (hflags.extra_done hm hextra) h
    · exact done_of_exec_decBlock_extra hs hm hbidx (Nat.le_of_not_lt hp) h

end

/-! ### What the flags say is kept -/

namespace SessionFlags

variable {c : Instr} {s t : State}

/-- With no session open the flags say nothing. -/
theorem of_idle (h : t.mode = .idle) : SessionFlags t := by
  constructor <;> simp [h]

theorem of_same (hflags : SessionFlags s) (same : SameSession s t) : SessionFlags t where
  inc_closed := by rw [same.mode_eq, same.inc_eq]; exact hflags.inc_closed
  encode_plain := by rw [same.mode_eq, same.hdr_eq, same.extra_eq]; exact hflags.encode_plain
  before_header := by
    rw [same.mode_eq, same.hdr_eq, same.done_eq, same.extra_eq]; exact hflags.before_header
  extra_done := by rw [same.mode_eq, same.extra_eq, same.done_eq]; exact hflags.extra_done

theorem of_effect (hs : Inv s) (hflags : SessionFlags s) (heffect : SessionEffect s t c)
    (h : exec c s = .next t) : SessionFlags t := by
  cases heffect with
  | kept same => exact hflags.of_same same
  | opened _ _ done hdr extra inc => constructor <;> simp [done, hdr, extra, inc]
  | framed enc _ _ same =>
    have hmode : t.mode = .enc := same.mode_eq.trans enc
    have hinc := hflags.inc_closed (by rw [enc]; decide)
    obtain ⟨hhdr, hextra⟩ := hflags.encode_plain enc
    constructor <;> simp [hmode, same.inc_eq, hinc, same.hdr_eq, hhdr, same.extra_eq, hextra]
  | parsed dec _ _ inc mode =>
    exact {
      inc_closed := fun _ => inc.trans (hflags.inc_closed (by rw [dec]; decide))
      encode_plain := fun henc => by rw [mode, dec] at henc; cases henc
      before_header := fun _ hhdr => by rw [hdr_of_exec_decBlock hs dec h] at hhdr; cases hhdr
      extra_done := fun _ => done_of_extra_of_exec_decBlock hs hflags dec h }
  | closed _ _ same => exact of_idle same.mode_eq
  | aborted same => exact of_idle same.mode_eq

end SessionFlags

/-! ### Which command sets and clears a flag -/

namespace SessionEffect

variable {c : Instr} {s t : State}

/-- Only opening a session clears `DONE`, if `DEC_BLOCK` does not, as in a state with the invariant (R37). -/
theorem done_writers (h : SessionEffect s t c)
    (hkept : c = .decBlock → s.mode = .dec → s.done = true → t.done = true) :
    (s.done = false → t.done = true → c = .encFrame ∨ c = .decBlock) ∧
    (s.done = true → t.done = false → c = .encInit ∨ c = .decInit) := by
  cases h with
  | kept same => simp +contextual [same.done_eq]
  | closed _ _ same => simp +contextual [same.done_eq]
  | aborted same => simp [same.done_eq]
  | opened command _ done => simp [done, command.imp And.left And.left]
  | framed _ _ done => simp +contextual [done]
  | parsed dec => simp +contextual [hkept rfl dec]

theorem hdr_writers (h : SessionEffect s t c) :
    (s.hdr = false → t.hdr = true → c = .decBlock) ∧
    (s.hdr = true → t.hdr = false → c = .encInit ∨ c = .decInit) := by
  cases h with
  | kept same => simp +contextual [same.hdr_eq]
  | closed _ _ same => simp +contextual [same.hdr_eq]
  | aborted same => simp [same.hdr_eq]
  | opened command _ _ hdr => simp [hdr, command.imp And.left And.left]
  | framed _ _ _ same => simp +contextual [same.hdr_eq]
  | parsed _ hdr => simp +contextual [hdr]

theorem extra_writers (h : SessionEffect s t c) :
    (s.extra = false → t.extra = true → c = .decBlock) ∧
    (s.extra = true → t.extra = false → c = .encInit ∨ c = .decInit) := by
  cases h with
  | kept same => simp +contextual [same.extra_eq]
  | closed _ _ same => simp +contextual [same.extra_eq]
  | aborted same => simp [same.extra_eq]
  | opened command _ _ _ extra => simp [extra, command.imp And.left And.left]
  | framed _ _ _ same => simp +contextual [same.extra_eq]
  | parsed _ _ extra => simp +contextual [extra]

theorem inc_writers (h : SessionEffect s t c) :
    (s.inc = false → t.inc = true → c = .encEnd ∨ c = .decEnd) ∧
    (s.inc = true → t.inc = false → c = .encInit ∨ c = .decInit) := by
  cases h with
  | kept same => simp +contextual [same.inc_eq]
  | closed command inc => simp +contextual [inc, command.imp And.left And.left]
  | aborted same => simp [same.inc_eq]
  | opened command _ _ _ _ inc => simp [inc, command.imp And.left And.left]
  | framed _ _ _ same => simp +contextual [same.inc_eq]
  | parsed _ _ _ inc => simp +contextual [inc]

/-- The mode goes from `IDLE` to a session and back (R41). -/
theorem mode_writers (h : SessionEffect s t c) (hne : t.mode ≠ s.mode) :
    (c = .encInit ∧ s.mode = .idle ∧ t.mode = .enc) ∨ (c = .decInit ∧ s.mode = .idle ∧ t.mode = .dec) ∨
    (c = .encEnd ∧ s.mode = .enc ∧ t.mode = .idle) ∨ (c = .decEnd ∧ s.mode = .dec ∧ t.mode = .idle) ∨
    (c = .abort ∧ t.mode = .idle) := by
  cases h with
  | kept same => exact absurd same.mode_eq hne
  | framed _ _ _ same => exact absurd same.mode_eq hne
  | parsed _ _ _ _ mode => exact absurd mode hne
  | opened command idle =>
    obtain ⟨hc, hmode⟩ | ⟨hc, hmode⟩ := command
    · exact .inl ⟨hc, idle, hmode⟩
    · exact .inr (.inl ⟨hc, idle, hmode⟩)
  | closed command _ same =>
    obtain ⟨hc, hmode⟩ | ⟨hc, hmode⟩ := command
    · exact .inr (.inr (.inl ⟨hc, hmode, same.mode_eq⟩))
    · exact .inr (.inr (.inr (.inl ⟨hc, hmode, same.mode_eq⟩)))
  | aborted same => exact .inr (.inr (.inr (.inr ⟨rfl, same.mode_eq⟩)))

end SessionEffect

/-! ### The statements -/

/-- Settles O52: of each flag, the effects that set and clear it; the invariant and the flags are for `DONE`. -/
theorem statusChangesOnlyAsListed : Obligations.StatusChangesOnlyAsListed := by
  unfold Obligations.StatusChangesOnlyAsListed
  intro i s t hs hflags h
  have hlatch := (effect_of_exec h).latched_or_clrerr
  have hsession := sessionEffect_of_exec h
  rw [← exec_performed] at h
  obtain ⟨hdoneSet, hdoneClear⟩ := hsession.done_writers fun hp hm hdone =>
    done_of_exec_decBlock hs hflags hm hdone (hp ▸ h)
  obtain ⟨hhdrSet, hhdrClear⟩ := hsession.hdr_writers
  obtain ⟨hextraSet, hextraClear⟩ := hsession.extra_writers
  obtain ⟨hincSet, hincClear⟩ := hsession.inc_writers
  refine ⟨fun he ht => ?_, hdoneSet, hdoneClear, hhdrSet, hhdrClear, hextraSet, hextraClear, hincSet,
    hincClear, hsession.mode_writers⟩
  obtain ⟨hkept, -⟩ | hp := hlatch he
  · simp [ht] at hkept
  · exact hp

end Sys2Proof.Machine
end

section
/-! SUPPORT. The invariant in three parts, each kept by every instruction for its own reason: the constants, the
configuration and the latch; the buffers; the session (R59). From it, the statements on the invariants
(10_state.md). -/

namespace Sys2Proof.Machine

/-! ### The parts of the invariant -/

/-- The items on the constants, the configuration and the latch. -/
structure ConfigInv (s : State) : Prop where
  id_eq : s.id = Config.idValue
  cap_eq : s.cap = BitVec.ofNat 64 s.gMax
  gMax_legal : Config.LegalGMax s.gMax
  gdiv8_pos : 1 ≤ s.gdiv8.toNat
  gdiv8_le : s.gdiv8.toNat ≤ s.gMax / 8
  thresh_le : s.thresh.toNat ≤ 254
  latch : s.err = false ↔ s.code = .none

/-- The items on the session. -/
structure SessionInv (s : State) : Prop where
  pos_le : s.pos.toNat ≤ s.fsize.toNat
  spanoff_cases : s.spanoff = 0 ∨ s.spanoff = 8
  span_fits : s.mode ≠ .idle → s.spanoff.toNat + s.spanlen.toNat ≤ s.blockSize
  encode : s.mode = .enc → EncodeSession s
  decode_before : s.mode = .dec → s.hdr = false → DecodeBeforeHeader s
  decode_after : s.mode = .dec → s.hdr = true → DecodeAfterHeader s

/-- The items on the buffers. -/
structure BufferInv (s : State) : Prop where
  buf_wf : s.buf.wf
  buf_bounded : s.buf.bounded (Config.bsMax s.gMax)
  ras_wf : s.ras.wf
  ras_bounded : s.ras.bounded (Config.rasMax s.gMax)

theorem Inv.config {s : State} (h : Inv s) : ConfigInv s := { h with }

theorem Inv.session {s : State} (h : Inv s) : SessionInv s := { h with }

theorem Inv.buffers {s : State} (h : Inv s) : BufferInv s := { h with }

theorem Inv.of_parts {s : State} (hc : ConfigInv s) (hs : SessionInv s) (hb : BufferInv s) : Inv s :=
  { hc, hs, hb with }

/-! ### Constants, configuration and latch -/

section
variable {i : Instr} {s t : State}

theorem gMax_eq_of_cap_eq (h : t.cap = s.cap) : t.gMax = s.gMax := by
  rw [State.gMax, h, State.gMax]

theorem gMax_eq_of_exec (h : exec i s = .next t) : t.gMax = s.gMax :=
  gMax_eq_of_cap_eq (effect_of_exec h).id_cap_eq.2

/-- The configuration is left alone, or is an operand of `CFG` within its ranges (R221). -/
theorem config_of_exec (h : exec i s = .next t) :
    (t.gdiv8 = s.gdiv8 ∧ t.thresh = s.thresh) ∨
    (1 ≤ t.gdiv8.toNat ∧ t.gdiv8.toNat ≤ s.gMax / 8 ∧ t.thresh.toNat ≤ 254) := by
  by_cases hsame : t.gdiv8 = s.gdiv8 ∧ t.thresh = s.thresh
  · exact .inl hsame
  obtain ⟨hp, -⟩ := (effect_of_exec h).cfg_of_config_ne (Decidable.not_and_iff_or_not.mp hsame)
  rw [← exec_performed, hp] at h
  obtain ⟨-, rfl⟩ | ⟨-, -, rfl⟩ | ⟨-, hok, rfl⟩ := exec_cfg_cases h
  · simp at hsame
  · simp at hsame
  · have hranges := (cfgOperandBad_iff s.gMax s.arg).not.mp (by simp [hok])
    refine .inr ⟨?_, ?_, ?_⟩
    · rw [argGdiv8_toNat]; omega
    · rw [argGdiv8_toNat]; omega
    · rw [argThresh_toNat]; omega

/-- With the latch clear after an instruction, its code is the cleared one or the one before (R244). -/
theorem Effect.code_of_err_false {c : Instr} (h : Effect c s t) (ht : t.err = false) :
    t.code = .none ∨ (s.err = false ∧ t.code = s.code) := by
  cases h with
  | clrerr => exact .inl rfl
  | error e same => simp [same.err_eq] at ht
  | plain same => exact .inr ⟨same.err_eq.symm.trans ht, same.code_eq⟩
  | block _ same => exact .inr ⟨same.err_eq.symm.trans ht, same.code_eq⟩
  | cfg | raster | arg | bufWr | rasWr => exact .inr ⟨ht, rfl⟩

/-- `NONE` is never recorded (R241), and a latched error is kept or cleared together with its code. -/
theorem code_ne_none_of_exec (hlatch : s.err = false ↔ s.code = .none) (h : exec i s = .next t)
    (ht : t.err = true) : t.code ≠ .none := by
  intro hcode
  cases he : s.err with
  | false => simpa [hcode] using errorCodesComeFromTheirCauses i s t h he ht
  | true =>
    obtain ⟨-, hkept⟩ | hp := (effect_of_exec h).latched_or_clrerr he
    · have hclear := hlatch.mpr (hkept.symm.trans hcode)
      simp [he] at hclear
    · rw [← exec_performed, hp] at h
      rw [exec_clrerr_cases h] at ht
      cases ht

theorem latch_of_exec (hlatch : s.err = false ↔ s.code = .none) (h : exec i s = .next t) :
    t.err = false ↔ t.code = .none := by
  refine ⟨fun ht => ?_, fun hcode => ?_⟩
  · obtain hnone | ⟨he, hkept⟩ := (effect_of_exec h).code_of_err_false ht
    · exact hnone
    · exact hkept.trans (hlatch.mp he)
  · by_contra hne
    exact code_ne_none_of_exec hlatch h (by simpa using hne) hcode

theorem ConfigInv.of_exec (hs : ConfigInv s) (h : exec i s = .next t) : ConfigInv t := by
  obtain ⟨hid, hcap⟩ := (effect_of_exec h).id_cap_eq
  have hgMax := gMax_eq_of_exec h
  have hconfig : 1 ≤ t.gdiv8.toNat ∧ t.gdiv8.toNat ≤ t.gMax / 8 ∧ t.thresh.toNat ≤ 254 := by
    rw [hgMax]
    obtain ⟨hg, hth⟩ | hcfg := config_of_exec h
    · rw [hg, hth]
      exact ⟨hs.gdiv8_pos, hs.gdiv8_le, hs.thresh_le⟩
    · exact hcfg
  obtain ⟨hpos, hle, hth⟩ := hconfig
  exact {
    id_eq := hid.trans hs.id_eq
    cap_eq := by rw [hcap, hgMax]; exact hs.cap_eq
    gMax_legal := by rw [hgMax]; exact hs.gMax_legal
    gdiv8_pos := hpos
    gdiv8_le := hle
    thresh_le := hth
    latch := latch_of_exec hs.latch h }

/-! ### Buffers -/

theorem BufferInv.of_exec (hs : Inv s) (h : exec i s = .next t) : BufferInv t := by
  have hbuf := buf_writtenBelow_of_exec hs h
  have hras := ras_writtenBelow_of_exec hs h
  exact {
    buf_wf := hbuf.wf hs.buf_wf
    buf_bounded := by rw [gMax_eq_of_exec h]; exact hbuf.bounded _ le_rfl hs.buf_bounded
    ras_wf := hras.wf hs.ras_wf
    ras_bounded := by rw [gMax_eq_of_exec h]; exact hras.bounded _ le_rfl hs.ras_bounded }

/-! ### The session -/

theorem EncodeSession.of_same (h : EncodeSession s) (same : SameSession s t)
    (hbs : t.blockSize = s.blockSize) : EncodeSession t := by
  obtain ⟨h1, h2, h3, h4, h5, h6, h7, h8⟩ := h
  constructor <;>
    simpa only [same.fsize_eq, same.nblk_eq, same.bidx_eq, same.pos_eq, same.spanoff_eq, same.spanlen_eq,
      same.done_eq, hbs]

theorem DecodeBeforeHeader.of_same (h : DecodeBeforeHeader s) (same : SameSession s t) :
    DecodeBeforeHeader t where
  bidx_eq := same.bidx_eq.trans h.bidx_eq
  pos_eq := same.pos_eq.trans h.pos_eq
  fsize_eq := same.fsize_eq.trans h.fsize_eq
  nblk_eq := same.nblk_eq.trans h.nblk_eq

theorem DecodeAfterHeader.of_same (h : DecodeAfterHeader s) (same : SameSession s t)
    (hbs : t.blockSize = s.blockSize) : DecodeAfterHeader t where
  bidx_pos := by rw [same.bidx_eq]; exact h.bidx_pos
  nblk_eq := by rw [same.nblk_eq, same.fsize_eq, hbs]; exact h.nblk_eq
  pos_eq := by rw [same.pos_eq, same.fsize_eq, same.bidx_eq, hbs]; exact h.pos_eq
  done_iff := by rw [same.done_eq, same.pos_eq, same.fsize_eq]; exact h.done_iff

theorem SessionInv.of_same (hs : SessionInv s) (same : SameSession s t)
    (hbs : s.mode ≠ .idle → t.blockSize = s.blockSize) : SessionInv t := by
  have hopen {m : Mode} (hm : t.mode = m) (hne : m ≠ .idle) : t.blockSize = s.blockSize :=
    hbs (by rw [← same.mode_eq, hm]; exact hne)
  exact {
    pos_le := by rw [same.pos_eq, same.fsize_eq]; exact hs.pos_le
    spanoff_cases := by rw [same.spanoff_eq]; exact hs.spanoff_cases
    span_fits := fun hm => by
      rw [same.spanoff_eq, same.spanlen_eq, hopen rfl hm]
      exact hs.span_fits (by rwa [← same.mode_eq])
    encode := fun hm =>
      (hs.encode (same.mode_eq.symm.trans hm)).of_same same (hopen hm (by decide))
    decode_before := fun hm hhdr =>
      (hs.decode_before (same.mode_eq.symm.trans hm) (same.hdr_eq.symm.trans hhdr)).of_same same
    decode_after := fun hm hhdr =>
      (hs.decode_after (same.mode_eq.symm.trans hm) (same.hdr_eq.symm.trans hhdr)).of_same same
        (hopen hm (by decide)) }

/-- With no session open, little is left to hold. -/
theorem SessionInv.of_idle (hm : t.mode = .idle) (hpos : t.pos.toNat ≤ t.fsize.toNat)
    (hoff : t.spanoff = 0 ∨ t.spanoff = 8) : SessionInv t where
  pos_le := hpos
  spanoff_cases := hoff
  span_fits := fun hne => absurd hm hne
  encode := fun h => by simp [hm] at h
  decode_before := fun h => by simp [hm] at h
  decode_after := fun h => by simp [hm] at h

theorem SessionInv.of_enc (hm : t.mode = .enc) (hpos : t.pos.toNat ≤ t.fsize.toNat)
    (hoff : t.spanoff = 0 ∨ t.spanoff = 8) (hfits : t.spanoff.toNat + t.spanlen.toNat ≤ t.blockSize)
    (he : EncodeSession t) : SessionInv t where
  pos_le := hpos
  spanoff_cases := hoff
  span_fits := fun _ => hfits
  encode := fun _ => he
  decode_before := fun h => by simp [hm] at h
  decode_after := fun h => by simp [hm] at h

/-- `ENC_INIT` opens a session at the first block (R135). -/
theorem SessionInv.of_encInit (hs : Inv s) (hm : s.mode = .idle) (h : exec .encInit s = .next t) :
    SessionInv t := by
  have hbs8 := eight_le_blockSize hs.gdiv8_pos
  obtain ⟨u, hexec, hframe, hnblk, hspanlen⟩ := exec_encInit_of_idle hm hs.gdiv8_pos
  obtain rfl : u = t := Host.Outcome.next.inj (hexec.symm.trans h)
  have hmode : u.mode = .enc := by rw [hframe]
  have hfsize : u.fsize = s.arg := by rw [hframe]
  have hbidx : u.bidx = 0 := by rw [hframe]
  have hpos : u.pos = 0 := by rw [hframe]
  have hspanoff : u.spanoff = 8 := by rw [hframe]
  have hdone : u.done = false := by rw [hframe]
  have hbs : u.blockSize = s.blockSize := by rw [hframe]; rfl
  have hbidx0 : u.bidx.toNat = 0 := by rw [hbidx]; rfl
  have hpos0 : u.pos.toNat = 0 := by rw [hpos]; rfl
  have hspanoff8 : u.spanoff.toNat = 8 := by rw [hspanoff]; rfl
  rw [← hfsize, ← hbs] at hnblk hspanlen
  rw [← hbs] at hbs8
  have hnblk1 : 1 ≤ u.nblk.toNat := hnblk ▸ blockCount_pos hbs8
  have hne : u.bidx ≠ u.nblk := fun heq => by rw [← heq] at hnblk1; omega
  refine .of_enc hmode (by omega) (.inr hspanoff) (by omega) {
    nblk_eq := hnblk
    nblk_pos := hnblk1
    bidx_le := by omega
    pos_eq := by rw [hpos0, hbidx0, Nat.zero_mul]; omega
    span_done := fun heq => absurd heq hne
    span_off := fun _ => by rw [hspanoff, if_pos hbidx]
    span_len := fun _ => by omega
    done_iff := by simp [hdone, hne] }

/-- `ENC_FRAME` goes on to the next block (R136). -/
theorem SessionInv.of_encFrame (hs : Inv s) (hm : s.mode = .enc) (hleft : s.bidx.toNat < s.nblk.toNat)
    (h : exec .encFrame s = .next t) : SessionInv t := by
  have he := hs.encode hm
  have hend := encode_pos_add_spanlen hs hm hleft
  have hnotDone : s.done = false := by
    have hne : s.bidx ≠ s.nblk := fun heq => by simp [heq] at hleft
    simpa using he.done_iff.not.mpr hne
  obtain ⟨u, hexec, hframe, hpos, hbidx, hlast, hmore⟩ := exec_encFrame_of_left hs hm hleft
  obtain rfl : u = t := Host.Outcome.next.inj (hexec.symm.trans h)
  have hmode : u.mode = .enc := by rw [hframe]; exact hm
  have hfsize : u.fsize = s.fsize := by rw [hframe]
  have hnblk : u.nblk = s.nblk := by rw [hframe]
  have hspanoff : u.spanoff = 0 := by rw [hframe]
  have hspanoff0 : u.spanoff.toNat = 0 := by rw [hspanoff]; rfl
  have hbs : u.blockSize = s.blockSize := by rw [hframe]; rfl
  have hbidx0 : u.bidx ≠ 0 := fun h0 => by simp [h0] at hbidx
  have hspanlen : u.spanlen.toNat ≤ u.blockSize := by
    by_cases heq : u.bidx = s.nblk
    · rw [(hlast heq).2]
      exact Nat.zero_le _
    · rw [(hmore heq).2, hbs]
      exact Nat.min_le_left _ _
  refine .of_enc hmode (by rw [hfsize]; omega) (.inl hspanoff) (by omega) {
    nblk_eq := by rw [hnblk, hfsize, hbs]; exact he.nblk_eq
    nblk_pos := by rw [hnblk]; exact he.nblk_pos
    bidx_le := by rw [hnblk]; omega
    pos_eq := by rw [hpos, hend, hfsize, hbidx, hbs]
    span_done := fun heq => (hlast (heq.trans hnblk)).2
    span_off := fun _ => by rw [hspanoff, if_neg hbidx0]
    span_len := fun hne => by
      rw [(hmore fun heq => hne (heq.trans hnblk.symm)).2, hbs, hspanoff0, hfsize, Nat.sub_zero]
    done_iff := ?_ }
  by_cases heq : u.bidx = s.nblk
  · simp [(hlast heq).1, heq, hnblk]
  · simp [(hmore heq).1, hnotDone, heq, hnblk]

/-- `DEC_INIT` opens a session before its header (R192). -/
theorem SessionInv.of_decInit (hm : s.mode = .idle) (h : exec .decInit s = .next t) : SessionInv t := by
  obtain rfl := Host.Outcome.next.inj ((exec_decInit_of_idle hm).symm.trans h)
  exact {
    pos_le := Nat.le_refl 0
    spanoff_cases := .inl rfl
    span_fits := fun _ => Nat.zero_le _
    encode := fun henc => by cases henc
    decode_before := fun _ _ => ⟨rfl, rfl, rfl, rfl⟩
    decode_after := fun _ hhdr => by cases hhdr }

/-- Of whichever kind a block is, its span lies in it. -/
theorem parsedBlock_span_fits (hg : 1 ≤ s.gdiv8.toNat) :
    ((parsedBlock s).spanoff = 0 ∨ (parsedBlock s).spanoff = 8) ∧
      (parsedBlock s).spanoff.toNat + (parsedBlock s).spanlen.toNat ≤ s.blockSize := by
  have hbs := eight_le_blockSize hg
  by_cases h : s.bidx = 0
  · have hoff : (parsedBlock s).spanoff = 8 := by rw [parsedBlock_header h]
    have hoff8 : (parsedBlock s).spanoff.toNat = 8 := by rw [hoff]; rfl
    refine ⟨.inr hoff, ?_⟩
    rw [hoff8, parsedBlock_header_spanlen h]
    omega
  · have hoff := (parsedBlock_after_header h).2.2.2
    have hoff0 : (parsedBlock s).spanoff.toNat = 0 := by rw [hoff]; rfl
    refine ⟨.inl hoff, ?_⟩
    rw [hoff0, parsedBlock_spanlen h]
    omega

/-- After the `k`-th block, `POS` is the payload's part of the first `k + 1` blocks. -/
theorem decode_pos_add_spanlen (hs : Inv s) (hm : s.mode = .dec) :
    s.pos.toNat + (parsedBlock s).spanlen.toNat
      = min (parsedBlock s).fsize.toNat ((s.bidx.toNat + 1) * s.blockSize - 8) := by
  have hbs := eight_le_blockSize hs.gdiv8_pos
  rw [Nat.add_mul, Nat.one_mul]
  by_cases h : s.bidx = 0
  · have hpos : s.pos.toNat = 0 := by rw [(decodeBeforeHeader_of_bidx_eq_zero hs hm h).pos_eq]; rfl
    have hbidx : s.bidx.toNat = 0 := by rw [h]; rfl
    rw [parsedBlock_header_spanlen h, parsedBlock_header_fsize h, hpos, hbidx]
    omega
  · obtain ⟨-, hd⟩ := decodeAfterHeader_of_bidx_ne_zero hs hm h
    have hbidxbs : s.blockSize ≤ s.bidx.toNat * s.blockSize := Nat.le_mul_of_pos_left _ hd.bidx_pos
    rw [parsedBlock_spanlen h, (parsedBlock_after_header h).1, hd.pos_eq]
    omega

/-- A count of blocks that saturates is of no account for `POS`: that many blocks hold every payload (log
entry 14). -/
theorem min_saturated_blocks {f k bs : Nat} (hf : f < 2 ^ 64) (hbs : 8 ≤ bs) (hk : k < 2 ^ 64) :
    min f (min (k + 1) (2 ^ 64 - 1) * bs - 8) = min f ((k + 1) * bs - 8) := by
  by_cases hfits : k + 1 ≤ 2 ^ 64 - 1
  · rw [Nat.min_eq_left hfits]
  · have hsat : min (k + 1) (2 ^ 64 - 1) = 2 ^ 64 - 1 := Nat.min_eq_right (by omega)
    have hmany : (2 ^ 64 - 1) * 8 ≤ (2 ^ 64 - 1) * bs := Nat.mul_le_mul_left _ hbs
    have hmore : (2 ^ 64 - 1) * bs ≤ (k + 1) * bs := Nat.mul_le_mul_right _ (by omega)
    rw [hsat]
    omega

/-- `DEC_BLOCK` goes on to the next block, past the header (R193, R199). -/
theorem SessionInv.of_decBlock (hs : Inv s) (hm : s.mode = .dec) (h : exec .decBlock s = .next t) :
    SessionInv t := by
  have hbs8 := eight_le_blockSize hs.gdiv8_pos
  have hend := decode_pos_add_spanlen hs hm
  have hhdr := hdr_of_exec_decBlock hs hm h
  obtain ⟨hoff, hfits⟩ := parsedBlock_span_fits hs.gdiv8_pos
  obtain ⟨u, hexec, hframe, hpos, hbidx, hdone⟩ := exec_decBlock_of_dec hs hm
  obtain rfl : u = t := Host.Outcome.next.inj (hexec.symm.trans h)
  have hfsize : u.fsize = (parsedBlock s).fsize := by rw [hframe]
  have hnblk : u.nblk = (parsedBlock s).nblk := by rw [hframe]
  have hspanoff : u.spanoff = (parsedBlock s).spanoff := by rw [hframe]
  have hspanlen : u.spanlen = (parsedBlock s).spanlen := by rw [hframe]
  have hmode : u.mode = .dec := by rw [hframe, parsedBlock_frame]; exact hm
  have hbs : u.blockSize = s.blockSize := by rw [hframe, parsedBlock_frame]; rfl
  have hcount : u.nblk.toNat = blockCount u.fsize.toNat s.blockSize := by
    rw [hnblk, hfsize]
    by_cases h0 : s.bidx = 0
    · rw [parsedBlock_header_nblk hs h0, parsedBlock_header_fsize h0]
    · obtain ⟨hf, hn, -⟩ := parsedBlock_after_header h0
      rw [hf, hn]
      exact (decodeAfterHeader_of_bidx_ne_zero hs hm h0).2.nblk_eq
  exact {
    pos_le := by rw [hpos, hend, hfsize]; exact Nat.min_le_left _ _
    spanoff_cases := hspanoff ▸ hoff
    span_fits := fun _ => by rw [hspanoff, hspanlen, hbs]; exact hfits
    encode := fun henc => by simp [hmode] at henc
    decode_before := fun _ hnone => by simp [hhdr] at hnone
    decode_after := fun _ _ => {
      bidx_pos := by omega
      nblk_eq := by rw [hcount, hbs]
      pos_eq := by
        rw [hpos, hend, hfsize, hbidx, hbs,
          min_saturated_blocks (parsedBlock s).fsize.isLt hbs8 s.bidx.isLt]
      done_iff := by rw [hfsize]; exact hdone } }

theorem SessionInv.of_effect {c : Instr} (hs : Inv s) (heffect : SessionEffect s t c)
    (hconfig : s.mode ≠ .idle → t.blockSize = s.blockSize) (h : exec c s = .next t) : SessionInv t := by
  cases heffect with
  | kept same => exact hs.session.of_same same hconfig
  | opened command idle =>
    obtain ⟨rfl, -⟩ | ⟨rfl, -⟩ := command
    · exact .of_encInit hs idle h
    · exact .of_decInit idle h
  | framed enc left => exact .of_encFrame hs enc left h
  | parsed dec => exact .of_decBlock hs dec h
  | closed _ _ same =>
    exact .of_idle same.mode_eq (by rw [same.pos_eq, same.fsize_eq]; exact hs.pos_le)
      (same.spanoff_eq ▸ hs.spanoff_cases)
  | aborted same =>
    exact .of_idle same.mode_eq (by rw [same.pos_eq, same.fsize_eq]; exact hs.pos_le)
      (same.spanoff_eq ▸ hs.spanoff_cases)

/-! ### Every instruction keeps the invariant -/

/-- In a session the block size is constant (R34). -/
theorem blockSize_eq_of_exec (hm : s.mode ≠ .idle) (h : exec i s = .next t) :
    t.blockSize = s.blockSize := by
  have hg : t.gdiv8 = s.gdiv8 := by
    by_contra hne
    exact hm ((effect_of_exec h).cfg_of_config_ne (.inl hne)).2
  rw [State.blockSize, hg, State.blockSize]

theorem Inv.of_exec (hs : Inv s) (h : exec i s = .next t) : Inv t :=
  .of_parts (hs.config.of_exec h)
    (.of_effect hs (sessionEffect_of_exec h) (fun hm => blockSize_eq_of_exec hm h)
      ((exec_performed i s).trans h))
    (.of_exec hs h)

end

/-! ### Every step keeps the invariants -/

section
variable {s : State}

/-- No item is about the host port's fields. -/
theorem Inv.with_port (hs : Inv s) (inputs : List Input) (wdata rdata : Word) :
    Inv { s with inputs := inputs, wdata := wdata, rdata := rdata } :=
  .of_parts { hs.config with } (hs.session.of_same (by constructor <;> rfl) fun _ => rfl)
    { hs.buffers with }

theorem Inv.beginAccess (hs : Inv s) (a : Access) (rest : List Input) : Inv (beginAccess a rest s) :=
  hs.with_port rest a.data s.rdata

/-- A bus error does what a write to a read-only register does (R74, R78). -/
theorem Inv.busErrorWrite (hs : Inv s) : Inv (busErrorWrite s) :=
  hs.of_exec (exec_regWr_readOnly (r := .id) (by decide) (by decide) s)

theorem Inv.busErrorRead (hs : Inv s) : Inv (busErrorRead s) :=
  hs.busErrorWrite.with_port (recordError .bus s).inputs (recordError .bus s).wdata 0

/-- The state after the platform's reset (R57, R270). -/
theorem Inv.platformReset (b r : List Byte) (hg : Config.LegalGMax s.gMax)
    (hcap : s.cap = BitVec.ofNat 64 s.gMax) : Inv (platformReset b r s) := by
  have hgdiv8 : Config.gdiv8Reset.toNat ≤ s.gMax / 8 := by
    have : Config.gdiv8Reset.toNat = 8 := rfl
    omega
  refine .of_parts ?_ (.of_idle rfl (Nat.le_refl 0) (.inl rfl)) ?_
  · exact {
      id_eq := rfl
      cap_eq := hcap
      gMax_legal := hg
      gdiv8_pos := (by decide : 1 ≤ Config.gdiv8Reset.toNat)
      gdiv8_le := hgdiv8
      thresh_le := (by decide : Config.threshReset.toNat ≤ 254)
      latch := iff_of_true rfl rfl }
  · exact ⟨Memory.wf_ofBytes _ _, Memory.bounded_ofBytes (List.length_take_le _ _),
      Memory.wf_ofBytes _ _, Memory.bounded_ofBytes (List.length_take_le _ _)⟩

theorem SessionFlags.beginAccess (hflags : SessionFlags s) (a : Access) (rest : List Input) :
    SessionFlags (beginAccess a rest s) :=
  hflags.of_same (by constructor <;> rfl)

theorem SessionFlags.busErrorWrite (hflags : SessionFlags s) : SessionFlags (busErrorWrite s) :=
  hflags.of_same (.recordError .bus s)

theorem SessionFlags.busErrorRead (hflags : SessionFlags s) : SessionFlags (busErrorRead s) :=
  hflags.busErrorWrite.of_same (by constructor <;> rfl)

end

/-! ### The statements -/

/-- Settles O55: waiting, a reset, a bus error and every instruction keep the invariant. -/
theorem everyStepKeepsTheInvariants : Obligations.EveryStepKeepsTheInvariants := by
  unfold Obligations.EveryStepKeepsTheInvariants
  intro s t hs h
  obtain ⟨-, rfl⟩ | ⟨b, r, rest, -, rfl⟩ | ⟨a, rest, -, ⟨i, -, hx⟩ | ⟨-, rfl⟩⟩ := step_cases h
  · exact hs
  · exact .platformReset b r hs.gMax_legal hs.cap_eq
  · exact (hs.beginAccess a rest).of_exec hx
  · split
    · exact (hs.beginAccess a rest).busErrorWrite
    · exact (hs.beginAccess a rest).busErrorRead

/-- Settles O56: a reset closes the session, and what an instruction does to it keeps the flags' meaning. -/
theorem everyStepKeepsTheSessionFlags : Obligations.EveryStepKeepsTheSessionFlags := by
  unfold Obligations.EveryStepKeepsTheSessionFlags
  intro s t hs hflags h
  obtain ⟨-, rfl⟩ | ⟨b, r, rest, -, rfl⟩ | ⟨a, rest, -, ⟨i, -, hx⟩ | ⟨-, rfl⟩⟩ := step_cases h
  · exact hflags
  · exact .of_idle rfl
  · exact .of_effect (hs.beginAccess a rest) (hflags.beginAccess a rest) (sessionEffect_of_exec hx)
      ((exec_performed _ _).trans hx)
  · split
    · exact (hflags.beginAccess a rest).busErrorWrite
    · exact (hflags.beginAccess a rest).busErrorRead

/-- Settles O57: `State.reset` is what the platform's reset gives in the default build with the empty draw. -/
theorem resetMeetsTheInvariants : Obligations.ResetMeetsTheInvariants := by
  unfold Obligations.ResetMeetsTheInvariants
  refine ⟨⟨?_, .of_idle rfl⟩, fun s b r hg hcap => ⟨.platformReset b r hg hcap, .of_idle rfl⟩⟩
  rw [← platformReset_default]
  exact .platformReset [] [] (by decide) (by decide)

end Sys2Proof.Machine
end

section
/-! SUPPORT. One block on its way from an encoder to a decoder: framed, mapped to a raster, carried, packed and
parsed (42_joiner.md, R200). -/

namespace Sys2Proof.Machine

/-- The first `n` bytes of the big-endian image are the size without its last `8 − n` bytes. -/
theorem foldl_be64 (f : Word) {n : Nat} (hn : n ≤ 8) :
    (List.range n).foldl (fun acc k => acc * 256 + (be64 f k).toNat) 0 = f.toNat / 256 ^ (8 - n) := by
  induction n with
  | zero => exact (Nat.div_eq_of_lt f.isLt).symm
  | succ n ih =>
    rw [List.range_succ, List.foldl_append, ih (by omega), List.foldl_cons, List.foldl_nil,
      be64_toNat f (by omega), show 8 - n = (7 - n) + 1 by omega, show 8 - (n + 1) = 7 - n by omega,
      Nat.pow_succ, ← Nat.div_div_eq_div_mul]
    exact Nat.div_add_mod' _ _

/-- What the size's big-endian image says is the size (R17). -/
theorem unbe64_be64 (f : Word) : unbe64 (be64 f) = f.toNat :=
  (foldl_be64 f (le_refl 8)).trans (Nat.div_one _)

/-- The decoder packs the block that the encoder spread over its raster, with any legal threshold (R172). -/
theorem read_buf_of_carried_raster {s t d e : State} (hb : exec .b2r s = .next t)
    (hr : exec .r2b d = .next e) (hth : d.thresh.toNat ≤ 254) (hg : d.gdiv8 = s.gdiv8)
    (hras : ∀ i < s.grid * s.grid, d.ras.read i = t.ras.read i) {j : Nat} (hj : j < s.blockSize) :
    e.buf.read j = s.buf.read j := by
  have hbs : d.blockSize = s.blockSize := by rw [State.blockSize, hg, State.blockSize]
  have hpixel : ∀ k < 8, d.ras.read (8 * j + k) = px (bitAt s.buf.read (8 * j + k)) := fun k hk => by
    have hcell := byteCell_lt hj hk
    rw [hras _ hcell, read_ras_of_exec_b2r hb, if_pos hcell]
  calc e.buf.read j
      = deser8 (thrBits d.thresh d.ras.read j) := by rw [read_buf_of_exec_r2b hr, hbs, if_pos hj]
    _ = deser8 (thrBits d.thresh (fun i => px (bitAt s.buf.read i)) j) :=
        congrArg deser8 (thrBits_congr hpixel)
    _ = s.buf.read j := by rw [thrBits_px_bitAt hth, deser8_ser8]

/-- The framed block's span is the payload put in: `ENC_FRAME` writes no byte of it. -/
theorem read_framedBuf_span {s : State} {p : Nat → Byte} (hs : Inv s) (hm : s.mode = .enc)
    (hleft : s.bidx.toNat < s.nblk.toNat) (hspan : SpanHolds p s) {k : Nat} (hk : k < s.spanlen.toNat) :
    (framedBuf s).read (s.spanoff.toNat + k) = p (s.pos.toNat + k) := by
  have hoff := encode_spanoff hs hm hleft
  have hheader : ¬ (s.bidx = 0 ∧ s.spanoff.toNat + k < 8) := fun ⟨h0, hlt⟩ => by
    rw [hoff, if_pos h0] at hlt
    exact absurd hlt (Nat.not_lt.mpr (Nat.le_add_right 8 k))
  rw [read_framedBuf fun h0 => by rw [hoff, if_pos h0], if_neg hheader, if_neg (by omega)]
  exact hspan k hk

/-- What a decoder that parses the encoder's block of the same index finds: the encoder's place in the payload,
its size and its span, and no extra block. -/
structure FindsBlock (s d : State) : Prop where
  pos_eq : d.pos = s.pos
  fsize_eq : (parsedBlock d).fsize = s.fsize
  spanoff_eq : (parsedBlock d).spanoff = s.spanoff
  spanlen_eq : (parsedBlock d).spanlen = s.spanlen
  extra_eq : (parsedBlock d).extra = d.extra

section
variable {s d : State} (hs : Inv s) (hms : s.mode = .enc) (hleft : s.bidx.toNat < s.nblk.toNat)
  (hd : Inv d) (hmd : d.mode = .dec) (hbs : d.blockSize = s.blockSize) (hbidx : d.bidx = s.bidx)
include hs hms hleft hd hmd hbs hbidx

/-- In the first block the decoder reads the size that the encoder wrote. -/
theorem findsBlock_header (h : s.bidx = 0)
    (hbuf : ∀ j < s.blockSize, d.buf.read j = (framedBuf s).read j) : FindsBlock s d := by
  have hd0 : d.bidx = 0 := hbidx.trans h
  have hbs8 := eight_le_blockSize hs.gdiv8_pos
  have hoff : s.spanoff = 8 := by rw [encode_spanoff hs hms hleft, if_pos h]
  have hoff8 : s.spanoff.toNat = 8 := by rw [hoff]; rfl
  have hlen := (hs.encode hms).span_len fun heq => by simp [heq] at hleft
  have hpos : s.pos.toNat = 0 := by
    have hbidx0 : s.bidx.toNat = 0 := by rw [h]; rfl
    rw [(hs.encode hms).pos_eq, hbidx0, Nat.zero_mul, Nat.zero_sub, Nat.min_zero]
  have hsize : unbe64 d.buf.read = s.fsize.toNat := by
    rw [← unbe64_be64]
    refine unbe64_congr fun k hk => ?_
    rw [hbuf k (by omega), read_framedBuf fun _ => hoff, if_pos ⟨h, hk⟩]
  exact {
    pos_eq := by
      rw [(decodeBeforeHeader_of_bidx_eq_zero hd hmd hd0).pos_eq]
      exact (BitVec.eq_of_toNat_eq hpos).symm
    fsize_eq := BitVec.eq_of_toNat_eq (by rw [parsedBlock_header_fsize hd0, hsize])
    spanoff_eq := by rw [parsedBlock_header hd0, hoff]
    spanlen_eq := BitVec.eq_of_toNat_eq (by
      rw [parsedBlock_header_spanlen hd0, hsize, hbs, hlen, hoff8, hpos, Nat.sub_zero])
    extra_eq := by rw [parsedBlock_header hd0] }

/-- In a later block encoder and decoder go by the same size to the same place. -/
theorem findsBlock_data (h : s.bidx ≠ 0) (hfsize : d.fsize = s.fsize) : FindsBlock s d := by
  have hd0 : d.bidx ≠ 0 := hbidx ▸ h
  have hoff : s.spanoff = 0 := by rw [encode_spanoff hs hms hleft, if_neg h]
  have hoff0 : s.spanoff.toNat = 0 := by rw [hoff]; rfl
  have hlen := (hs.encode hms).span_len fun heq => by simp [heq] at hleft
  have hpos : d.pos = s.pos := by
    apply BitVec.eq_of_toNat_eq
    rw [(decodeAfterHeader_of_bidx_ne_zero hd hmd hd0).2.pos_eq, (hs.encode hms).pos_eq, hfsize, hbidx,
      hbs]
  have hrest : d.pos.toNat < d.fsize.toNat := by
    rw [hpos, hfsize]
    exact (encode_left_iff hs hms (one_le_toNat h)).mp hleft
  obtain ⟨hparsed, -, -, hparsedOff⟩ := parsedBlock_after_header hd0
  exact {
    pos_eq := hpos
    fsize_eq := hparsed.trans hfsize
    spanoff_eq := hparsedOff.trans hoff.symm
    spanlen_eq := BitVec.eq_of_toNat_eq (by
      rw [parsedBlock_spanlen hd0, hbs, hfsize, hpos, hlen, hoff0, Nat.sub_zero])
    extra_eq := by rw [parsedBlock_data hd0 hrest] }

/-- `DEC_BLOCK` with the framed block in its buffer gives the encoder's span, and the payload in it. -/
theorem exec_decBlock_of_framedBlock {p : Nat → Byte} (hspan : SpanHolds p s)
    (hfsize : d.bidx ≠ 0 → d.fsize = s.fsize)
    (hbuf : ∀ j < s.blockSize, d.buf.read j = (framedBuf s).read j) :
    ∃ t, exec .decBlock d = .next t ∧ t.fsize = s.fsize ∧ t.spanoff = s.spanoff ∧
      t.spanlen = s.spanlen ∧ t.pos.toNat = s.pos.toNat + s.spanlen.toNat ∧ t.extra = d.extra ∧
      (t.done = true ↔ t.pos = s.fsize) ∧
      ∀ k < t.spanlen.toNat, t.buf.read (t.spanoff.toNat + k) = p (s.pos.toNat + k) := by
  have hfound : FindsBlock s d := by
    by_cases h : s.bidx = 0
    · exact findsBlock_header hs hms hleft hd hmd hbs hbidx h hbuf
    · exact findsBlock_data hs hms hleft hd hmd hbs hbidx h (hfsize (hbidx ▸ h))
  obtain ⟨t, hexec, hframe, hpos, -, hdone⟩ := exec_decBlock_of_dec hd hmd
  have hoff : t.spanoff = s.spanoff := by rw [hframe]; exact hfound.spanoff_eq
  have hlen : t.spanlen = s.spanlen := by rw [hframe]; exact hfound.spanlen_eq
  have hbufKept : t.buf = d.buf := by rw [hframe, parsedBlock_frame]
  refine ⟨t, hexec, by rw [hframe]; exact hfound.fsize_eq, hoff, hlen, ?_,
    by rw [hframe]; exact hfound.extra_eq, by rw [hdone, hfound.fsize_eq], fun k hk => ?_⟩
  · rw [hpos, hfound.pos_eq, hfound.spanlen_eq]
  · rw [hlen] at hk
    have hfits := hs.span_fits (by rw [hms]; decide)
    rw [hbufKept, hoff, hbuf _ (by omega)]
    exact read_framedBuf_span hs hms hleft hspan hk

end

/-- Settles O50: the packed block is the framed one, so its parsing finds the encoder's size and span, which
holds the payload. -/
theorem oneBlockRoundTrip : Obligations.OneBlockRoundTrip := by
  unfold Obligations.OneBlockRoundTrip
  intro s d p hs hms hleft hspan hd hmd hg hbidx hfsize
  obtain ⟨s1, henc, hs1, hs1pos, -⟩ := exec_encFrame_of_left hs hms hleft
  obtain ⟨s2, hb2r⟩ := exec_b2r_next s1
  refine ⟨s1, s2, henc, hb2r, fun hras => ?_⟩
  obtain ⟨d1, hr2b⟩ := exec_r2b_next d
  have hd1 := frame_of_exec_r2b hr2b
  have hs1g : s1.gdiv8 = s.gdiv8 := by rw [hs1]
  have hs1grid : s1.grid = s.grid := by rw [State.grid, hs1g, State.grid]
  have hs1bs : s1.blockSize = s.blockSize := by rw [State.blockSize, hs1g, State.blockSize]
  have hs1buf : s1.buf = framedBuf s := by rw [hs1]
  have hd1bs : d1.blockSize = s.blockSize := by rw [hd1, State.blockSize, hg, State.blockSize]
  have hbuf : ∀ j < s.blockSize, d1.buf.read j = (framedBuf s).read j := fun j hj => by
    rw [← hs1buf]
    exact read_buf_of_carried_raster hb2r hr2b hd.thresh_le (hg.trans hs1g.symm) (hs1grid ▸ hras)
      (hs1bs ▸ hj)
  obtain ⟨d2, hdec, hd2fsize, hd2off, hd2len, hd2pos, hd2extra, hd2done, hpayload⟩ :=
    exec_decBlock_of_framedBlock hs hms hleft (hd.of_exec hr2b) (by rw [hd1]; exact hmd) hd1bs
      (by rw [hd1]; exact hbidx) hspan (by rw [hd1]; exact hfsize) hbuf
  have hextra : d1.extra = d.extra := by rw [hd1]
  exact ⟨d1, d2, hr2b, hdec, hd2fsize, hd2off, hd2len,
    BitVec.eq_of_toNat_eq (hd2pos.trans hs1pos.symm), hd2extra.trans hextra, hd2done, hpayload⟩

end Sys2Proof.Machine
end

section
/-! SUPPORT. What the host's reads tell it, and that opening a session forgets earlier ones (10_state.md, R56). -/

namespace Sys2Proof.Machine

/-! ### What a word says of its fields -/

theorem Mode.toNat_injective {m m' : Mode} (h : m.toNat = m'.toNat) : m = m' := by
  cases m <;> cases m' <;> simp_all [Mode.toNat]

theorem ErrCode.toNat_injective {c c' : ErrCode} (h : c.toNat = c'.toNat) : c = c' := by
  cases c <;> cases c' <;> simp_all [ErrCode.toNat]

section
variable {s s' : State}

/-- `CFG` reads as both its fields (R33). -/
theorem config_eq_of_cfgWord_eq (h : cfgWord s = cfgWord s') :
    s.gdiv8 = s'.gdiv8 ∧ s.thresh = s'.thresh := by
  have hval := congrArg BitVec.toNat h
  have hg := s.gdiv8.isLt
  have hg' := s'.gdiv8.isLt
  rw [cfgWord_toNat, cfgWord_toNat] at hval
  exact ⟨BitVec.eq_of_toNat_eq (by omega), BitVec.eq_of_toNat_eq (by omega)⟩

/-- `STATUS` reads as the five flags and the mode (R35). -/
theorem status_eq_of_statusWord_eq (h : statusWord s = statusWord s') :
    s.err = s'.err ∧ s.done = s'.done ∧ s.hdr = s'.hdr ∧ s.extra = s'.extra ∧ s.inc = s'.inc ∧
      s.mode = s'.mode := by
  have hval := congrArg BitVec.toNat h
  rw [statusWord_toNat, statusWord_toNat] at hval
  have bit {b b' : Bool} (hb : b.toNat = b'.toNat) : b = b' := by cases b <;> cases b' <;> simp_all
  have := s.err.toNat_le; have := s.done.toNat_le; have := s.hdr.toNat_le
  have := s.extra.toNat_le; have := s.inc.toNat_le
  have := s'.err.toNat_le; have := s'.done.toNat_le; have := s'.hdr.toNat_le
  have := s'.extra.toNat_le; have := s'.inc.toNat_le
  exact ⟨bit (by omega), bit (by omega), bit (by omega), bit (by omega), bit (by omega),
    Mode.toNat_injective (by omega)⟩

theorem code_eq_of_errWord_eq (h : errWord s = errWord s') : s.code = s'.code :=
  ErrCode.toNat_injective (by rw [← errWord_toNat, ← errWord_toNat, h])

/-- A buffer's contents below its physical size are the whole buffer. -/
theorem Memory.eq_of_read_below {n : Nat} {m m' : Memory} (hm : m.wf) (hm' : m'.wf) (hb : m.bounded n)
    (hb' : m'.bounded n) (h : ∀ a < n, m.read a = m'.read a) : m = m' := by
  refine Memory.eq_of_read_eq hm hm' fun a => ?_
  obtain ha | ha := Nat.lt_or_ge a n
  · exact h a ha
  · rw [Memory.read_of_bounded hb ha, Memory.read_of_bounded hb' ha]

end

/-! ### The statements -/

/-- Settles O59: each register's word gives its fields, and a canonical buffer is its bytes. -/
theorem hostReadsDetermineTheBlock : Obligations.HostReadsDetermineTheBlock := by
  unfold Obligations.HostReadsDetermineTheBlock
  intro s s' hs hs' hreg hbuf hras
  have hcap : s.cap = s'.cap := hreg .cap
  have hgMax : s'.gMax = s.gMax := gMax_eq_of_cap_eq hcap.symm
  obtain ⟨hgdiv8, hthresh⟩ := config_eq_of_cfgWord_eq (hreg .cfg)
  obtain ⟨herr, hdone, hhdr, hextra, hinc, hmode⟩ := status_eq_of_statusWord_eq (hreg .status)
  have hbufEq := Memory.eq_of_read_below hs.buf_wf hs'.buf_wf hs.buf_bounded
    (hgMax ▸ hs'.buf_bounded) hbuf
  have hrasEq := Memory.eq_of_read_below hs.ras_wf hs'.ras_wf hs.ras_bounded
    (hgMax ▸ hs'.ras_bounded) hras
  rw [show s.id = s'.id from hreg .id, hcap, hgdiv8, hthresh, herr, hdone, hhdr, hextra, hinc, hmode,
    code_eq_of_errWord_eq (hreg .err), show s.arg = s'.arg from hreg .arg,
    show s.fsize = s'.fsize from hreg .fsize, show s.nblk = s'.nblk from hreg .nblk,
    show s.bidx = s'.bidx from hreg .bidx, show s.pos = s'.pos from hreg .pos,
    show s.spanoff = s'.spanoff from hreg .spanoff, show s.spanlen = s'.spanlen from hreg .spanlen,
    hbufEq, hrasEq]

/-- Settles O60: both INIT commands write each of these registers and flags. -/
theorem openingASessionForgetsEarlierOnes : Obligations.OpeningASessionForgetsEarlierOnes := by
  unfold Obligations.OpeningASessionForgetsEarlierOnes
  intro s f n b p o l dn hd ex ic hm
  have hlegal : legalIn .encInit s.mode = true := by rw [hm]; rfl
  constructor
  · exact (whenLegal_of_legal (by exact hlegal) _).trans (whenLegal_of_legal hlegal _).symm
  · rw [exec_decInit_of_idle hm, exec_decInit_of_idle (by exact hm)]

end Sys2Proof.Machine
end
